-- ==== Sys2Proof/Word.lean ====
section
/-! DEFINITION. The values the block computes with (spec/00_scope.md R8, R12): bits, bytes, command
words and the three values of `status`. -/

namespace Sys2Proof

/-- One bit: a raw bit, a corrected bit, `pair_bit` (R8, R12). -/
abbrev Bit := BitVec 1

/-- One byte of the buffer, and the partial byte `acc` (R8, R28). -/
abbrev Byte := BitVec 8

/-- A command word: four bits, `op` in bits 3..1 and `b` in bit 0 (R47, decision D10). -/
abbrev CommandWord := BitVec 4

/-- The three values of the `status` flag (R20). -/
inductive Status where
  | empty
  | filling
  | full
  deriving DecidableEq, Repr, Inhabited

end Sys2Proof
end

