-- ==== Sys2Proof/Config.lean ====
section
/-! DEFINITION. What is fixed for one block: the parameter `CAPACITY` (R6, R110), the sizes derived
from it (R8), and the values the spec leaves unspecified (R25, R95; log entry 3). -/

namespace Sys2Proof

/-- The parameter of one block. `CAPACITY = 0` is outside the parameter's domain (R6, U6), so a
`Config` carries the proof that it is at least 1 and no block with capacity 0 can be written. -/
structure Config where
  /-- `CAPACITY`, the number of bytes of the buffer (R6). -/
  capacity : Nat
  /-- The domain of `CAPACITY` (R6, decision D2). -/
  capacity_pos : 1 ≤ capacity
  deriving DecidableEq, Repr

/-- The default block: `CAPACITY = 10` (R6). -/
def Config.standard : Config := ⟨10, by decide⟩

/-- `IW`, the width in bits of `fill_index` (R8, R17, decision D3). -/
def Config.indexWidth (cfg : Config) : Nat := Nat.log2 cfg.capacity + 1

/-! ### Free values

Each is a constant with no body: nothing can be proved about what it is. The first argument is the
number of the draw, which State counts in `fresh`, so that two draws are unrelated. -/

/-- What `fill_index` holds while unspecified, before it is cut to `IW` bits (R25). -/
opaque Config.freeFillIndex : Nat → Nat

/-- What `acc` holds while unspecified (R25). -/
opaque Config.freeAcc : Nat → Byte

/-- What `cnt` holds while unspecified (R25). -/
opaque Config.freeCnt : Nat → BitVec 3

/-- What `pair_valid` holds while unspecified (R25). -/
opaque Config.freePairValid : Nat → Bool

/-- What `pair_bit` holds while unspecified (R25). -/
opaque Config.freePairBit : Nat → Bit

/-- What `status` holds while unspecified (R25). -/
opaque Config.freeStatus : Nat → Status

/-- What byte `i` of `buf` holds while unspecified (R25); arguments: draw, index. -/
opaque Config.freeByte : Nat → Nat → Byte

/-- The result of a STATUS issued before the first INIT: any value (U2). -/
opaque Config.freeStatusResult : Nat → Status

/-- Byte `i` of the result of a BUFFER issued before the first INIT: any value (U2). -/
opaque Config.freeViewByte : Nat → Nat → Byte

end Sys2Proof
end

