-- ==== Sys2Proof/Syntax.lean ====
section
/-! DEFINITION. The five operations of the block (R46, R48), one constructor per row of the opcode
table. -/

namespace Sys2Proof

/-- One operation with its operand. ACCEPT's operand is whatever value a caller passes, so that the
contract violation CV1 (a value outside 0 and 1; R67, R94) can be written and is refused; a command
word can only carry 0 and 1 (R49). Log entry 6. -/
inductive Instr where
  /-- INIT, `initialize()` (R60). -/
  | init
  /-- ACCEPT b, `accept_one_bit(bit)` (R67, R69). -/
  | accept (b : Nat)
  /-- STATUS, `buffer_status()` (R87). -/
  | status
  /-- BUFFER, `buffer()` (R89). -/
  | buffer
  /-- RESET, `reset()` (R63). -/
  | reset
  deriving DecidableEq, Repr

end Sys2Proof
end

