-- ==== Sys2Proof/WellFormed.lean ====
section
/-! DEFINITION. Which operations can be encoded: the operand of ACCEPT is "constrained to {0,1}"
(R67); no other operation has an operand (R49). -/

namespace Sys2Proof

/-- The operation can be written as a command word. The one check: ACCEPT's raw bit is 0 or 1. -/
def Instr.wellFormed : Instr → Bool
  | .init => true
  | .accept b => b == 0 || b == 1
  | .status => true
  | .buffer => true
  | .reset => true

/-- `wellFormed` as a proposition. -/
abbrev Instr.WellFormed (i : Instr) : Prop := i.wellFormed = true

end Sys2Proof
end

