-- ==== Sys2Proof/Decode.lean ====
section
/-! DEFINITION. Command words and operations (spec/30_encoding.md): the opcode table, the decoder,
total on the sixteen words and rejecting reserved words by name, the encoder, and the textual form. -/

namespace Sys2Proof

/-! ### The opcode table (R48, R52) -/

/-- `op`, bits 3..1 of a command word (R47). -/
def opField (w : CommandWord) : BitVec 3 := w.extractLsb' 1 3

/-- `b`, bit 0 of a command word (R47, R49). -/
def operandField (w : CommandWord) : Bit := w.extractLsb' 0 1

/-- The operation numbers (R48, decision D11). -/
def opNumber : Instr → BitVec 3
  | .init => 0#3
  | .accept _ => 1#3
  | .status => 2#3
  | .buffer => 3#3
  | .reset => 4#3

/-- A row of the opcode table: a word selects the row when `w & mask = pattern` (R52). -/
structure OpcodeRow where
  mnemonic : String
  pattern : CommandWord
  mask : CommandWord
  deriving DecidableEq, Repr

/-- The rows of spec/opcode_table.json, in its order (R48). -/
def opcodeTable : List OpcodeRow :=
  [ ⟨"INIT",   0x0#4, 0xF#4⟩,
    ⟨"ACCEPT", 0x2#4, 0xE#4⟩,
    ⟨"STATUS", 0x4#4, 0xF#4⟩,
    ⟨"BUFFER", 0x6#4, 0xF#4⟩,
    ⟨"RESET",  0x8#4, 0xF#4⟩ ]

/-- The word selects the row (R52). -/
def OpcodeRow.selects (r : OpcodeRow) (w : CommandWord) : Bool := w &&& r.mask == r.pattern

/-- The table's mnemonic of an operation (R48, R57). -/
def Instr.mnemonic : Instr → String
  | .init => "INIT"
  | .accept _ => "ACCEPT"
  | .status => "STATUS"
  | .buffer => "BUFFER"
  | .reset => "RESET"

/-! ### The decoder -/

/-- Why a word is reserved (R50, R51). -/
inductive Reserved where
  /-- Bit 0 is 1 on an operation that has no operand: 0x1, 0x5, 0x7, 0x9 (R50). -/
  | operandBitSet
  /-- `op` is 5, 6 or 7: 0xA to 0xF (R51). -/
  | unassignedOp
  deriving DecidableEq, Repr

/-- The decoder's answer: an operation, or "invalid" with its reason (R51, R52). -/
inductive Decoded where
  | instr (i : Instr)
  | invalid (why : Reserved)
  deriving DecidableEq, Repr

/-- Decoding, total on the sixteen words, in the order R52 gives. -/
def decode (w : CommandWord) : Decoded :=
  if w &&& 0xE#4 = 0x2#4 then .instr (.accept (operandField w).toNat)
  else if w = 0x0#4 then .instr .init
  else if w = 0x4#4 then .instr .status
  else if w = 0x6#4 then .instr .buffer
  else if w = 0x8#4 then .instr .reset
  else if opField w < 5#3 then .invalid .operandBitSet
  else .invalid .unassignedOp

/-- The number as a command word, where it is one: its first `nbits` bits are a number of four bits
(R47). Bits above bit 3 do not exist in a command word, so a larger number is none. -/
def commandWord (nbits w : Nat) : Option CommandWord :=
  if w % 2 ^ nbits < 16 then some (BitVec.ofNat 4 (w % 2 ^ nbits)) else none

/-- The operation the decoder reads from a word numbered as the opcode table numbers it. -/
def decodeTableWord (nbits w : Nat) : Option Instr :=
  match commandWord nbits w with
  | none => none
  | some c =>
    match decode c with
    | .instr i => some i
    | .invalid _ => none

/-! ### The encoder -/

/-- The operand bit of an operation's word: the raw bit for ACCEPT, 0 for every other (R47, R50).
DESIGN CHOICE (log entry 21): for an operand outside 0 and 1, which has no word (R49), this total
function gives the low bit, so that the "word" of ACCEPT 2 is 0x2. It means nothing, and no step and no
other operation of the machine calls it: `exec` refuses such an ACCEPT. -/
def operandBit : Instr → Bit
  | .accept b => BitVec.ofNat 1 b
  | .init => 0#1
  | .status => 0#1
  | .buffer => 0#1
  | .reset => 0#1

/-- The command word of a well-formed operation: `op` above `b` (R47, R48, R52). An ACCEPT of a value
outside 0 and 1 has none (R49); what stands here for it is log entry 21's. -/
def encode (i : Instr) : CommandWord := opNumber i ++ operandBit i

/-! ### The textual form (R57, decision D14) -/

/-- The mnemonic in capitals and, for ACCEPT only, a space and the raw bit (R57). An ACCEPT of a value
outside 0 and 1 is not one of R57's six texts; it is written with its number (log entry 21). -/
def Instr.text : Instr → String
  | .accept b => "ACCEPT " ++ toString b
  | .init => "INIT"
  | .status => "STATUS"
  | .buffer => "BUFFER"
  | .reset => "RESET"

/-- Reading one operation's text: the six texts R57 lists, and nothing else. -/
def parseInstr (t : String) : Option Instr :=
  if t = "INIT" then some .init
  else if t = "ACCEPT 0" then some (.accept 0)
  else if t = "ACCEPT 1" then some (.accept 1)
  else if t = "STATUS" then some .status
  else if t = "BUFFER" then some .buffer
  else if t = "RESET" then some .reset
  else none

/-- A sequence of operations, separated by semicolons, in the order they are executed (R57). -/
def programText (ops : List Instr) : String :=
  String.intercalate "; " (ops.map Instr.text)

end Sys2Proof
end

