-- ==== Sys2Proof/Machine/State.lean ====
section
/-! DEFINITION. The state of the block (spec/10_state.md): its seven hardware elements, the
model-only flag `inited`, and beside them what a model whose step is a function of one state needs:
the block's parameter, the operations still to come, the result of the last one, the mark of a
contract violation and the counter of free values. -/

namespace Sys2Proof.Machine

/-- The buffer as data: (index, byte) pairs. The canonical form is `Memory.wf`. -/
abbrev Memory := List Host.Cell

/-- What an index that is not listed reads as: 0x00, the value INIT and RESET leave in every byte
(R27, R60). Log entry 11. -/
abbrev unlistedByte : Byte := 0x00#8

/-- The canonical form: indices strictly rising, no entry equal to what an unlisted index reads as. -/
abbrev Memory.wf (m : Memory) : Prop :=
  m.Pairwise (fun c d => c.1 < d.1) ∧ ∀ c ∈ m, c.2 ≠ unlistedByte

/-- Every listed index is below `n`: the buffer has the indices `0 .. CAPACITY-1` only (R28, R37). -/
abbrev Memory.inRange (m : Memory) (n : Nat) : Prop := ∀ c ∈ m, c.1 < n

/-- Who issues an operation (R9): the startup glue, the one producer, the one consumer. The block
does not know which (R100). A second producer (CV5) cannot be written (log entry 15). -/
inductive Agent where
  | startup
  | producer
  | consumer
  deriving DecidableEq, Repr

/-- What an operation returns (R54, R55, R56). -/
inductive Response where
  /-- Nothing: INIT, ACCEPT, RESET (R54). -/
  | nothing
  /-- STATUS: the value of `status` (R55). -/
  | status (st : Status)
  /-- BUFFER: the bytes `buf[0] .. buf[CAPACITY-1]` in order (R56). -/
  | view (bytes : List Byte)
  deriving DecidableEq, Repr

/-- One thing the outside world does to the block in one step (R9, R10). Log entries 4, 13, 14. -/
inductive Stimulus where
  /-- An agent issues an operation as a command word (R47). -/
  | word (agent : Agent) (w : CommandWord)
  /-- An agent issues an operation by name (R46, R59). -/
  | call (agent : Agent) (i : Instr)
  /-- The hardware reset input is asserted, alone or in the same step as an operation, which is then
  lost (R97, R107). A reserved word there is lost likewise: DESIGN CHOICE, log entry 13. -/
  | resetInput (lost : Option CommandWord)
  /-- Power is lost and comes back, or the process restarts (R105). -/
  | powerLoss
  deriving DecidableEq, Repr

/-- The state. The first seven fields are the hardware's (R15); `inited` is the spec's own
model-only flag (R25); the last five are this model's. -/
structure State where
  /-- `buf`, `CAPACITY` bytes (R16, R28). -/
  buf : Memory
  /-- `fill_index`, `IW` bits: the bytes committed so far (R17). -/
  fillIndex : Nat
  /-- `acc`, 8 bits: the partial byte (R18). -/
  acc : Byte
  /-- `cnt`, 3 bits: how many bits of `acc` are valid (R18). -/
  cnt : BitVec 3
  /-- `pair_valid`, 1 bit: the pairing slot holds a bit (R19). -/
  pairValid : Bool
  /-- `pair_bit`, 1 bit: the held raw bit (R19). -/
  pairBit : Bit
  /-- `status`, 2 bits, held as the enumeration R20 allows. -/
  status : Status
  /-- `inited`: an INIT or RESET has happened since power-on (R25). -/
  inited : Bool
  /-- The parameter of this block; no step changes it (R6, R110). Log entry 1. -/
  cfg : Config
  /-- What is still to be done to the block, first in order first (R10, R39). Log entry 4. -/
  input : List Stimulus
  /-- What the operation executed last returned (R12, R26). Log entry 5. -/
  response : Response
  /-- The run is marked: a contract violation CV2 has happened in it (R95, U2). Log entry 8. -/
  violated : Bool
  /-- How many times unspecified values have been drawn. Log entry 3. -/
  fresh : Nat
  deriving DecidableEq, Repr

/-- Why the machine stops with a fault. The block itself raises no exception (R93); a fault marks an
operation to which the spec gives no next state. -/
inductive Fault where
  /-- Raised by ACCEPT (execAccept) before the first INIT or RESET: contract violation CV2 (R70, U2).
  Safe: the document calls the behaviour undefined and nothing can be proved of what follows. -/
  | acceptBeforeInit
  /-- Raised by the commit of ACCEPT (State.commit) when `fill_index` names no byte of the buffer
  (R28). No state that meets the invariants raises it (R77). Safe: the machine stops. -/
  | indexOutsideBuffer (i : Nat)
  deriving DecidableEq, Repr

/-- Why the model does not accept an input: it is outside the domain of the step function. -/
inductive Refusal where
  /-- Raised by exec's arms for an instruction with no meaning yet; no arm does. Safe: it stops. -/
  | notModelled (mnemonic : String)
  /-- Raised by step on a reserved command word (R51, U8). Safe: no next state is given. -/
  | reservedWord (w : CommandWord) (why : Reserved)
  /-- Raised by ACCEPT (execAccept) on an operand outside 0 and 1: contract violation CV1 (R94, U1).
  Safe: the value is rejected before the operation. In the sub-step machine an ACCEPT inside another is
  refused as `overlappingAccept` first (log entry 16). -/
  | rawBitOutsideRange (b : Nat)
  /-- Raised by the pseudo-operation BUFRD on an index outside the view: CV6 (R58, R94, U7). Safe. -/
  | viewIndexOutsideBuffer (i : Nat)
  /-- Raised by the sub-step machine on an INIT or RESET inside an ACCEPT: CV4 (R43, U4). Safe. -/
  | resetDuringAccept
  /-- Raised by the sub-step machine on an ACCEPT inside another, whatever its operand: CV5 (R103,
  R114, U5; before CV1 by log entry 16). Safe. -/
  | overlappingAccept
  deriving DecidableEq, Repr

/-- The state of a block just reset: the column "after RESET" of R27's table, nothing returned, no
operation waiting, no violation, no free value drawn. -/
def State.resetOf (cfg : Config) : State where
  buf := []
  fillIndex := 0
  acc := 0x00#8
  cnt := 0#3
  pairValid := false
  pairBit := 0#1
  status := .empty
  inited := true
  cfg := cfg
  input := []
  response := .nothing
  violated := false
  fresh := 0

/-- The machine right after reset (R27, R107), with the default capacity (R6). It is not the
power-on state, which is `State.powerOn` (R25, R106). Log entry 2. -/
def State.reset : State := State.resetOf Config.standard

end Sys2Proof.Machine
end

