-- ==== Sys2Proof/Machine/Flags.lean ====
section
/-! DEFINITION. The block's only flag is `status` (R20). ACCEPT writes it in two ways (R78). -/

namespace Sys2Proof.Machine

/-- `status` after a corrected bit is appended and no byte completed (R78(a)). -/
def statusAfterAppend : Status := .filling

/-- `status` after a commit that leaves `fill_index = n`: Full exactly at `CAPACITY` (R78). -/
def statusAfterCommit (cfg : Config) (n : Nat) : Status :=
  if n = cfg.capacity then .full else .filling

/-- `status` as a function of the bit cursor's parts (R21, R22). -/
def statusFor (cfg : Config) (fillIndex : Nat) (cnt : BitVec 3) : Status :=
  if fillIndex = cfg.capacity then .full
  else if fillIndex = 0 ∧ cnt = 0#3 then .empty
  else .filling

end Sys2Proof.Machine
end

