-- ==== Sys2Proof/Machine/Operands.lean ====
section
/-! DEFINITION. Operand forms and result forms: the raw bit (R49, R67), the placing of a corrected
bit in a byte (R30, R76), the Von Neumann corrector (R71 to R75), and the forms in which results
stand on wires and in text (R55 to R57). -/

namespace Sys2Proof.Machine

/-- ACCEPT's operand as it stands: 0 or 1; any other value is no raw bit and is not masked (R49, U1). -/
def rawBit : Nat → Option Bit
  | 0 => some 0#1
  | 1 => some 1#1
  | _ + 2 => none

/-- The corrector on a complete pair: an equal pair gives nothing (R74), a differing pair gives the
first bit (R7, R75). -/
def correctPair (first second : Bit) : Option Bit :=
  if first = second then none else some first

/-- `e << cnt` as a byte (R76, R120). -/
def placeBit (e : Bit) (cnt : BitVec 3) : Byte := e.setWidth 8 <<< cnt.toNat

/-- `acc | (e << cnt)`: the corrected bit goes to position `cnt` (R30, R76). -/
def appendTo (acc : Byte) (e : Bit) (cnt : BitVec 3) : Byte := acc ||| placeBit e cnt

/-! ### Results on wires -/

/-- The 2-bit code of a status value (R20, R55, decision D4). -/
def statusCode : Status → BitVec 2
  | .empty => 0b00#2
  | .filling => 0b01#2
  | .full => 0b10#2

/-- Reading a status code; 0b11 is never sent and is refused (R55, U12). -/
def statusOfCode (c : BitVec 2) : Option Status :=
  if c = 0b00#2 then some .empty
  else if c = 0b01#2 then some .filling
  else if c = 0b10#2 then some .full
  else none

/-- BUFFER's result on a wide bus: `buf[i]` in bits `8i+7 : 8i` (R32, R56, decision D13). -/
def viewBus : (bytes : List Byte) → BitVec (8 * bytes.length)
  | [] => 0#0
  | b :: rest => viewBus rest ++ b

/-! ### Results in text (R57) -/

/-- One hexadecimal digit. -/
def hexDigit (n : Nat) : Char :=
  if n < 10 then Char.ofNat (48 + n) else Char.ofNat (55 + n)

/-- A byte as `0x` and two capital hexadecimal digits. -/
def byteText (b : Byte) : String :=
  "0x" ++ String.ofList [hexDigit (b.toNat / 16), hexDigit (b.toNat % 16)]

/-- The name of a status value (R12). -/
def statusText : Status → String
  | .empty => "Empty"
  | .filling => "Filling"
  | .full => "Full"

/-- A result as it is written after an operation: `STATUS -> Filling`, `BUFFER -> [0xAA, 0x00]`. -/
def resultText (i : Instr) : Response → String
  | .nothing => i.text
  | .status st => i.text ++ " -> " ++ statusText st
  | .view bytes => i.text ++ " -> [" ++ String.intercalate ", " (bytes.map byteText) ++ "]"

end Sys2Proof.Machine
end

