-- ==== Sys2Proof/Machine/Ops.lean ====
section
/-! DEFINITION. The named operations over the buffer and the registers, each once: byte access
(R28), the result of an operation (R54 to R56), the initial state (R60), the pairing slot (R72,
R73), append and commit (R76, R77), and unspecified state (R25, R95).

The block takes no exception and has no return from one (R93, R98, R99): it saves nothing, changes
no mode and goes to no handler. What stands in that place is the contract violation. CV2 on a read
is `State.violateWith`; the other violations are faults or refusals of State.lean. -/

namespace Sys2Proof.Machine

/-! ### The buffer -/

/-- `MemRead(i, 1)` (R28). -/
def Memory.read : Memory → Nat → Byte
  | [], _ => unlistedByte
  | c :: m, i => if c.1 = i then c.2 else Memory.read m i

/-- `MemWrite(i, 1, v)` (R28), keeping the canonical form. -/
def Memory.write : Memory → Nat → Byte → Memory
  | [], i, v => if v = unlistedByte then [] else [(i, v)]
  | c :: m, i, v =>
    if c.1 < i then c :: Memory.write m i v
    else if c.1 = i then (if v = unlistedByte then m else (i, v) :: m)
    else if v = unlistedByte then c :: m
    else (i, v) :: c :: m

/-- A buffer that holds `f i` at each index `i` below `n`. -/
def Memory.ofFn (f : Nat → Byte) : Nat → Memory
  | 0 => []
  | n + 1 => (Memory.ofFn f n).write n (f n)

/-- The bytes `buf[0] .. buf[n-1]` in order (R56, R89). -/
def Memory.bytes (m : Memory) (n : Nat) : List Byte := (List.range n).map m.read

/-- The view: all `CAPACITY` bytes (R89). -/
def State.viewBytes (s : State) : List Byte := s.buf.bytes s.cfg.capacity

/-! ### Results -/

/-- `done(result)`: the operation returns `r` (R12). -/
def State.done (r : Response) (s : State) : State := { s with response := r }

/-! ### The initial state -/

/-- Every hardware element zeroed, `status` Empty, `inited` set: the assignments R60 and R63 list.
A buffer with no index listed reads 0x00 at every index. -/
def State.cleared (s : State) : State :=
  { s with
    buf := []
    fillIndex := 0
    acc := 0x00#8
    cnt := 0#3
    pairValid := false
    pairBit := 0#1
    status := .empty
    inited := true }

/-! ### The pairing slot -/

/-- The raw bit waits in the slot (R72). -/
def State.holdBit (b : Bit) (s : State) : State := { s with pairValid := true, pairBit := b }

/-- The slot is emptied, and `pair_bit` cleared with it (R19, R73). -/
def State.emptySlot (s : State) : State := { s with pairValid := false, pairBit := 0#1 }

/-! ### Append and commit -/

/-- A completed byte is stored at `fill_index`, the cursor advances, the accumulator is emptied and
`status` set (R77, R78). The index must name a byte of the buffer (R12, R28). -/
def State.commit (byte : Byte) (s : State) : Host.Outcome State Fault Refusal :=
  if s.fillIndex < s.cfg.capacity then
    .next
      { s with
        buf := s.buf.write s.fillIndex byte
        fillIndex := s.fillIndex + 1
        acc := 0x00#8
        cnt := 0#3
        status := statusAfterCommit s.cfg (s.fillIndex + 1)
        response := .nothing }
  else .fault (.indexOutsideBuffer s.fillIndex)

/-- A corrected bit is appended at position `cnt`; the eighth completes the byte (R76, R77). -/
def State.append (e : Bit) (s : State) : Host.Outcome State Fault Refusal :=
  if s.cnt.toNat + 1 < 8 then
    .next
      { s with
        acc := appendTo s.acc e s.cnt
        cnt := BitVec.ofNat 3 (s.cnt.toNat + 1)
        status := statusAfterAppend
        response := .nothing }
  else s.commit (appendTo s.acc e s.cnt)

/-! ### Unspecified state -/

/-- Every hardware element takes an unspecified value of its width (R25, R95, U3), from one draw. -/
def State.unspecified (s : State) : State :=
  { s with
    buf := Memory.ofFn (Config.freeByte s.fresh) s.cfg.capacity
    fillIndex := Config.freeFillIndex s.fresh % 2 ^ s.cfg.indexWidth
    acc := Config.freeAcc s.fresh
    cnt := Config.freeCnt s.fresh
    pairValid := Config.freePairValid s.fresh
    pairBit := Config.freePairBit s.fresh
    status := Config.freeStatus s.fresh
    fresh := s.fresh + 1 }

/-- Power comes up, or the process restarts: no state survives and no INIT has happened (R25, R105,
R106). -/
def State.restart (s : State) : State :=
  { s.unspecified with inited := false, response := .nothing }

/-- The power-on state of a block (R25, R106): every hardware element unspecified, `inited` false. -/
def State.powerOn (cfg : Config) : State := (State.resetOf cfg).restart

/-- Contract violation CV2 by a read: the result is any value, the run is marked, and of the state
nothing is known until the next INIT or RESET (R94, R95, U2). -/
def State.violateWith (r : Response) (s : State) : State :=
  { s.unspecified with response := r, violated := true }

/-- Any value for a STATUS (U2). -/
def State.anyStatus (s : State) : Response := .status (Config.freeStatusResult s.fresh)

/-- Any `CAPACITY` bytes for a BUFFER (U2). -/
def State.anyView (s : State) : Response :=
  .view ((List.range s.cfg.capacity).map (Config.freeViewByte s.fresh))

end Sys2Proof.Machine
end

