-- ==== Sys2Proof/Machine/Accept.lean ====
section
/-! DEFINITION. ACCEPT (spec/41_accept_one_bit.md). -/

namespace Sys2Proof.Machine

/-- ACCEPT b (R69), its checks in the order of R97: the operand at the boundary (CV1), `inited`
(CV2), Full (case A), the slot (case B), the pair (case C; cases D, E, F). -/
def execAccept (b : Nat) (s : State) : Host.Outcome State Fault Refusal :=
  match rawBit b with
  | none => .refused (.rawBitOutsideRange b)
  | some bit =>
    if s.inited = false then .fault .acceptBeforeInit
    else if s.status = .full then .next (s.done .nothing)
    else if s.pairValid = false then .next ((s.holdBit bit).done .nothing)
    else
      match correctPair s.pairBit bit with
      | none => .next (s.emptySlot.done .nothing)
      | some e => s.emptySlot.append e

end Sys2Proof.Machine
end

