-- ==== Sys2Proof/Machine/InitReset.lean ====
section
/-! DEFINITION. INIT and RESET (spec/40_initialize_reset.md). -/

namespace Sys2Proof.Machine

/-- INIT (R60): every element overwritten with a constant, from any state; returns nothing. -/
def execInit (s : State) : Host.Outcome State Fault Refusal := .next (s.cleared.done .nothing)

/-- RESET (R63): identical to INIT, from any state, also before the first INIT (R64); returns
nothing. -/
def execReset (s : State) : Host.Outcome State Fault Refusal := .next (s.cleared.done .nothing)

end Sys2Proof.Machine
end

