-- ==== Sys2Proof/Machine/StatusBuffer.lean ====
section
/-! DEFINITION. STATUS and BUFFER (spec/42_status_buffer.md). -/

namespace Sys2Proof.Machine

/-- STATUS (R87): returns the stored `status`; no state is written. Before the first INIT or RESET it
is CV2: the result is any value and the run is marked (U2). -/
def execStatus (s : State) : Host.Outcome State Fault Refusal :=
  if s.inited then .next (s.done (.status s.status)) else .next (s.violateWith s.anyStatus)

/-- BUFFER (R89): returns the `CAPACITY` bytes as they stand, whatever `status` is (R91); no state is
written. Before the first INIT or RESET it is CV2, as for STATUS. -/
def execBuffer (s : State) : Host.Outcome State Fault Refusal :=
  if s.inited then .next (s.done (.view s.viewBytes)) else .next (s.violateWith s.anyView)

end Sys2Proof.Machine
end

