-- ==== Sys2Proof/Machine/Dispatch.lean ====
section
/-! DEFINITION. One arm per operation. -/

namespace Sys2Proof.Machine

/-- The meaning of each operation (R48 names the rule of each). -/
def exec (i : Instr) (s : State) : Host.Outcome State Fault Refusal :=
  match i with
  | .init => Sys2Proof.Machine.execInit s
  | .accept b => Sys2Proof.Machine.execAccept b s
  | .status => Sys2Proof.Machine.execStatus s
  | .buffer => Sys2Proof.Machine.execBuffer s
  | .reset => Sys2Proof.Machine.execReset s

end Sys2Proof.Machine
end

