-- ==== Sys2Proof/Machine/Deliver.lean ====
section
/-! DEFINITION. What one thing from outside does to the block (R9, R10, R97, R105, R107), and how one
is put before it. -/

namespace Sys2Proof.Machine

/-- A command word is decoded and its operation executed; a reserved word is refused (R51, R52). -/
def deliverWord (w : CommandWord) (s : State) : Host.Outcome State Fault Refusal :=
  match decode w with
  | .instr i => exec i s
  | .invalid why => .refused (.reservedWord w why)

/-- The effect of one stimulus. Which agent issued an operation has no bearing on it (R100). The
reset input has the effect of INIT and wins over an operation in the same step (R97, R107).
DESIGN CHOICE (log entry 13, unsafe): it wins over a reserved word in the same step too, which is lost
like an operation and not refused; R97 speaks of operations only, R51 and U8 of a word alone. -/
def deliver (x : Stimulus) (s : State) : Host.Outcome State Fault Refusal :=
  match x with
  | .word _ w => deliverWord w s
  | .call _ i => exec i s
  | .resetInput _ => .next (s.cleared.done .nothing)
  | .powerLoss => .next s.restart

/-- Put a stimulus before all that are waiting. -/
def State.present (x : Stimulus) (s : State) : State := { s with input := x :: s.input }

/-- Take the first stimulus off the ones waiting. -/
def State.take (rest : List Stimulus) (s : State) : State := { s with input := rest }

end Sys2Proof.Machine
end

