-- ==== Sys2Proof/Machine/Step.lean ====
section
/-! DEFINITION. One step is one whole operation (R10). -/

namespace Sys2Proof.Machine

/-- One step: the next stimulus in the total order (R39) has its effect; with none presented the
state does not change (R10). -/
def step (s : State) : Host.Outcome State Fault Refusal :=
  match s.input with
  | [] => .next s
  | x :: rest => deliver x (s.take rest)

/-- The command word presented so that the very next step executes it. A number of more than four
bits is no command word and cannot be presented. Log entry 4. -/
def State.withFetchWord (s : State) (nbits w : Nat) : State :=
  match commandWord nbits w with
  | some c => s.present (.word .startup c)
  | none => s

end Sys2Proof.Machine
end

