-- ==== Sys2Proof/Machine/Pseudo.lean ====
section
/-! DEFINITION. Sequences of operations, and the pseudo-operations FEED, BUFRD and POLL, which expand
to real operations and which the block does not know (R57, R58, decision D14), and the end of a run
(R119). -/

namespace Sys2Proof.Machine

/-- Operations executed in order (R57), with what each returned, first in order first. -/
def runOps : List Instr → State → Host.Outcome (State × List Response) Fault Refusal
  | [], s => .next (s, [])
  | i :: ops, s =>
    match exec i s with
    | .next t =>
      match runOps ops t with
      | .next (u, rs) => .next (u, t.response :: rs)
      | .fault f => .fault f
      | .refused r => .refused r
    | .fault f => .fault f
    | .refused r => .refused r

/-- The end of a run: the first step of `ops` after which `status` is Full (R119, decision D31), as the
number of operations executed up to it and the state there; `none` if no step is one, which R116 allows.
The block does not halt there: `runOps` goes on. Log entry 22. -/
def runToEnd : List Instr → State → Host.Outcome (Option (Nat × State)) Fault Refusal
  | [], _ => .next none
  | i :: ops, s =>
    match exec i s with
    | .next t =>
      if t.status = .full then .next (some (1, t))
      else
        match runToEnd ops t with
        | .next e => .next (e.map fun p => (p.1 + 1, p.2))
        | .fault f => .fault f
        | .refused r => .refused r
    | .fault f => .fault f
    | .refused r => .refused r

/-- `FEED b0 b1 ... bn` is `ACCEPT b0; ...; ACCEPT bn` (R58). -/
def feed (bits : List Bit) : List Instr := bits.map fun b => .accept b.toNat

/-- `BUFRD i`: BUFFER, then element `i` of the result; refused for `i >= CAPACITY` (R58, CV6). -/
def bufrd (i : Nat) (s : State) : Host.Outcome (State × Byte) Fault Refusal :=
  if i < s.cfg.capacity then
    match exec .buffer s with
    | .next t =>
      match t.response with
      | .view bytes => .next (t, bytes.getD i unlistedByte)
      | .nothing => .refused (.viewIndexOutsideBuffer i)
      | .status _ => .refused (.viewIndexOutsideBuffer i)
    | .fault f => .fault f
    | .refused r => .refused r
  else .refused (.viewIndexOutsideBuffer i)

/-- `POLL`: STATUS until it returns Full (R58). `between` holds, for each further try, the operations
of the producer that fall before it (R88); its length is the fuel, since POLL need not end (R116).
The answer says whether Full was seen. Log entry 17. -/
def poll : List (List Instr) → State → Host.Outcome (State × Bool) Fault Refusal
  | [], s =>
    match exec .status s with
    | .next t => .next (t, t.response = .status .full)
    | .fault f => .fault f
    | .refused r => .refused r
  | ops :: more, s =>
    match exec .status s with
    | .next t =>
      if t.response = .status .full then .next (t, true)
      else
        match runOps ops t with
        | .next (u, _) => poll more u
        | .fault f => .fault f
        | .refused r => .refused r
    | .fault f => .fault f
    | .refused r => .refused r

end Sys2Proof.Machine
end

