-- ==== Sys2Proof/Machine/SubSteps.lean ====
section
/-! DEFINITION. ACCEPT performed as separate sub-steps, between which the consumer can look (R41,
R43): a second machine, beside `step`, for an implementation whose ACCEPT is not one step. Log entry
16. -/

namespace Sys2Proof.Machine

/-- One write of an ACCEPT. -/
inductive SubStep where
  | setSlot (valid : Bool) (bit : Bit)
  | storeByte (i : Nat) (v : Byte)
  | setFillIndex (n : Nat)
  | setAccumulator (acc : Byte) (cnt : BitVec 3)
  | setStatus (st : Status)
  deriving DecidableEq, Repr

/-- The effect of one write. -/
def SubStep.apply : SubStep → State → State
  | .setSlot v b, s => { s with pairValid := v, pairBit := b }
  | .storeByte i v, s => { s with buf := s.buf.write i v }
  | .setFillIndex n, s => { s with fillIndex := n }
  | .setAccumulator a c, s => { s with acc := a, cnt := c }
  | .setStatus st, s => { s with status := st }

/-- Writes performed in order. -/
def applyAll (l : List SubStep) (s : State) : State := l.foldl (fun t w => w.apply t) s

/-- The writes of a corrected bit: where it completes a byte, the byte first, then the cursor and the
accumulator, `status` last (R41); else the accumulator, then `status`. -/
def appendSubSteps (e : Bit) (s : State) : List SubStep :=
  if s.cnt.toNat + 1 < 8 then
    [ .setAccumulator (appendTo s.acc e s.cnt) (BitVec.ofNat 3 (s.cnt.toNat + 1)),
      .setStatus statusAfterAppend ]
  else
    [ .storeByte s.fillIndex (appendTo s.acc e s.cnt),
      .setFillIndex (s.fillIndex + 1),
      .setAccumulator 0x00#8 0#3,
      .setStatus (statusAfterCommit s.cfg (s.fillIndex + 1)) ]

/-- The writes of an ACCEPT of the raw bit `b`, in order (R41, R69). -/
def acceptSubSteps (b : Bit) (s : State) : List SubStep :=
  if s.status = .full then []
  else if s.pairValid = false then [.setSlot true b]
  else
    match correctPair s.pairBit b with
    | none => [.setSlot false 0#1]
    | some e => .setSlot false 0#1 :: appendSubSteps e s

/-- The block while an ACCEPT may be in flight: what can be seen now, and the writes still to come. -/
structure Refined where
  base : State
  inFlight : List SubStep
  deriving DecidableEq, Repr

/-- The next write of the ACCEPT in flight takes effect. -/
def Refined.advance (r : Refined) : Refined :=
  match r.inFlight with
  | [] => r
  | w :: rest => { base := w.apply r.base, inFlight := rest }

/-- The ACCEPT in flight runs to its end. -/
def Refined.finish (r : Refined) : Refined :=
  { base := applyAll r.inFlight r.base, inFlight := [] }

/-- An ACCEPT begins: its checks (R97) and its list of writes; it returns nothing (R54). -/
def Refined.beginAccept (b : Nat) (r : Refined) : Host.Outcome Refined Fault Refusal :=
  match rawBit b with
  | none => .refused (.rawBitOutsideRange b)
  | some bit =>
    if r.base.inited = false then .fault .acceptBeforeInit
    else .next { base := r.base.done .nothing, inFlight := acceptSubSteps bit r.base }

/-- An operation that is one step in this machine too, on what can be seen now. -/
def Refined.atomic (i : Instr) (r : Refined) : Host.Outcome Refined Fault Refusal :=
  match exec i r.base with
  | .next t => .next { r with base := t }
  | .fault f => .fault f
  | .refused x => .refused x

/-- An operation is issued. Inside an ACCEPT the consumer's STATUS and BUFFER see the writes made so
far; an INIT or RESET there is CV4 and another ACCEPT there is CV5, both refused (R41, R43, U4, U5).
DESIGN CHOICE (log entry 16): another ACCEPT there whose operand is outside 0 and 1 is CV1 too; R97 does
not order CV1 against CV5, and it is refused as CV5, its operand not looked at. -/
def Refined.issue (i : Instr) (r : Refined) : Host.Outcome Refined Fault Refusal :=
  match i with
  | .init => if r.inFlight = [] then r.atomic .init else .refused .resetDuringAccept
  | .accept b => if r.inFlight = [] then r.beginAccept b else .refused .overlappingAccept
  | .status => r.atomic .status
  | .buffer => r.atomic .buffer
  | .reset => if r.inFlight = [] then r.atomic .reset else .refused .resetDuringAccept

end Sys2Proof.Machine
end

