-- ==== Sys2Proof/Safety.lean ====
section
/-! DEFINITION. The terms claims use: the invariants (R21 to R23), what a caller owes the block (R94),
what a run may be trusted for (R111, R119), and the spec's own notation for laws over raw bits (R24,
R31, R82, R86). -/

namespace Sys2Proof.Machine

/-! ### Invariants -/

/-- The invariants of spec/10_state.md that hold once `inited` is set. -/
structure State.Settled (s : State) : Prop where
  /-- R21. -/
  full_iff : s.status = .full ↔ s.fillIndex = s.cfg.capacity
  /-- R22, first sentence. -/
  empty_iff : s.status = .empty ↔ s.fillIndex = 0 ∧ s.cnt = 0#3
  /-- R22, second sentence. -/
  filling_iff : s.status = .filling ↔ s.fillIndex < s.cfg.capacity ∧ (0 < s.fillIndex ∨ s.cnt ≠ 0#3)
  /-- R23(a); the range of `cnt` is its type. -/
  fill_le : s.fillIndex ≤ s.cfg.capacity
  /-- R23(b). -/
  acc_lt : s.acc.toNat < 2 ^ s.cnt.toNat
  /-- R23(c). -/
  slot_clear : s.pairValid = false → s.pairBit = 0#1
  /-- R23(d). -/
  full_clear : s.status = .full → s.cnt = 0#3 ∧ s.acc = 0x00#8 ∧ s.pairValid = false ∧ s.pairBit = 0#1
  /-- R23(e). -/
  rest_zero : ∀ i, s.fillIndex ≤ i → i < s.cfg.capacity → s.buf.read i = 0x00#8

/-- What every state keeps: the buffer in its canonical form and within its `CAPACITY` indices (R28),
`fill_index` within its `IW` bits (R8), and, once `inited` is set, the spec's invariants. -/
structure State.Inv (s : State) : Prop where
  buf_wf : s.buf.wf
  buf_inRange : s.buf.inRange s.cfg.capacity
  fill_lt : s.fillIndex < 2 ^ s.cfg.indexWidth
  settled : s.inited = true → s.Settled

/-- The block has been initialised and its state is one R21 to R23 allow: what every operation after
the first INIT or RESET starts from. -/
structure State.Ready (s : State) : Prop where
  inited : s.inited = true
  inv : s.Inv

/-! ### Comparing states -/

/-- The two states agree in every hardware element, in `inited` and in the block's parameter. The
buffers agree byte by byte. -/
structure State.SameElements (s t : State) : Prop where
  cfg : t.cfg = s.cfg
  buf : ∀ i, t.buf.read i = s.buf.read i
  fillIndex : t.fillIndex = s.fillIndex
  acc : t.acc = s.acc
  cnt : t.cnt = s.cnt
  pairValid : t.pairValid = s.pairValid
  pairBit : t.pairBit = s.pairBit
  status : t.status = s.status
  inited : t.inited = s.inited

/-- The two states agree in everything this model adds to the block, but for the result returned: the
parameter, the stimuli still waiting, the mark and the counter of free values. -/
structure State.SameSurroundings (s t : State) : Prop where
  cfg : t.cfg = s.cfg
  input : t.input = s.input
  violated : t.violated = s.violated
  fresh : t.fresh = s.fresh

/-- Every element zeroed, `status` Empty, `inited` set: the values of R27's columns "after INIT" and
"after RESET". -/
structure State.Initial (s : State) : Prop where
  buf : ∀ i, s.buf.read i = 0x00#8
  fillIndex : s.fillIndex = 0
  acc : s.acc = 0x00#8
  cnt : s.cnt = 0#3
  pairValid : s.pairValid = false
  pairBit : s.pairBit = 0#1
  status : s.status = .empty
  inited : s.inited = true

/-! ### What the callers owe the block -/

/-- INIT or RESET: the operations that begin a collection cycle (R119). -/
def beginsCycle : Instr → Bool
  | .init => true
  | .reset => true
  | .accept _ => false
  | .status => false
  | .buffer => false

/-- The operations keep the caller's contracts CV1 and CV2 (R94, R108): raw bits are 0 or 1, and no
ACCEPT, STATUS or BUFFER comes before the first INIT or RESET. CV3 is no fault; CV4, CV5 and CV6
cannot be written in the step model. -/
def contractKept : Bool → List Instr → Bool
  | _, [] => true
  | inited, i :: ops => i.wellFormed && (inited || beginsCycle i) && contractKept true ops

/-- Operations within one collection cycle: no INIT or RESET, every raw bit 0 or 1. -/
def withinCycle (ops : List Instr) : Bool := ops.all fun i => i.wellFormed && !(beginsCycle i)

/-- A safe run: every operation has a next state and no contract violation is marked at the end (R95,
`fault` in spec/93_implementation_defined.md: claims are made of such runs). -/
def safeRun (ops : List Instr) (s : State) : Bool :=
  match runOps ops s with
  | .next (t, _) => !t.violated
  | .fault _ => false
  | .refused _ => false

/-! ### The end of a run -/

/-- `status` is Full: the run has come to its end, at this step or at an earlier one of the same
collection cycle, which itself goes on to the next INIT or RESET. The first such step is `runToEnd`'s
(R119, decision D31). -/
def State.isFull (s : State) : Bool := s.status == .full

/-- What is observed at the end of a run: the results of STATUS and BUFFER (R119). -/
def State.observation (s : State) : Status × List Byte := (s.status, s.viewBytes)

/-! ### Notation for the laws -/

/-- The bit cursor, `8 * fill_index + cnt` (R24, decision D5). -/
def State.bitCursor (s : State) : Nat := 8 * s.fillIndex + s.cnt.toNat

/-- The stored corrected bit number `n`: bit `n mod 8` of byte `n div 8`, in the buffer if that byte
is committed and in the accumulator if not (R18, R31). -/
def State.storedBit (s : State) (n : Nat) : Bool :=
  if n / 8 < s.fillIndex then (s.buf.read (n / 8)).getLsbD (n % 8) else s.acc.getLsbD (n % 8)

/-- The non-overlapping pairs `(r[0], r[1]), (r[2], r[3]), ...` (R73, R82). -/
def pairsOf : List Bit → List (Bit × Bit)
  | a :: b :: rest => (a, b) :: pairsOf rest
  | [_] => []
  | [] => []

/-- The differing pairs (R75). -/
def differing (r : List Bit) : List (Bit × Bit) := (pairsOf r).filter fun p => p.1 != p.2

/-- The corrected bits `e[0], e[1], ...` of a raw stream: the first bits of its differing pairs, in
order (R75, R86). -/
def correctedBits (r : List Bit) : List Bit := (differing r).map Prod.fst

/-- `e[0] | e[1] << 1 | ...`: bits packed from the least significant upward (R30, R31). -/
def packBits : List Bit → Nat
  | [] => 0
  | e :: rest => e.toNat + 2 * packBits rest

/-- Byte `k` of the packed stream: bits `e[8k] .. e[8k+7]` (R31). -/
def packedByte (e : List Bit) (k : Nat) : Byte := BitVec.ofNat 8 (packBits ((e.drop (8 * k)).take 8))

/-- The raw bits a sequence of operations feeds, in order (R66, R86). DESIGN CHOICE (log entry 21): an
ACCEPT of a value outside 0 and 1 feeds no raw bit (R49) and would count here as the value's low bit. No
claim rests on it: a sequence that holds one does not complete. -/
def rawBits : List Instr → List Bit
  | [] => []
  | .accept b :: ops => BitVec.ofNat 1 b :: rawBits ops
  | .init :: ops => rawBits ops
  | .status :: ops => rawBits ops
  | .buffer :: ops => rawBits ops
  | .reset :: ops => rawBits ops

end Sys2Proof.Machine
end

