-- ==== Sys2Proof/Certificates/Slice0/Obligations.lean ====
section
/-! DEFINITION. The statements for the provers. Each docstring names the rule of spec/ it formalises;
where a statement rests on a decision of the spec's own (D<n>) or on a choice of this model, the
docstring says so. "INIT or RESET" is `beginsCycle`; a raw bit `b : Bit` is passed as `b.toNat`. -/

open Sys2Proof Sys2Proof.Machine

/-! ### Encoding -/

/-- The words of R48 written out bit by bit. The encoding is the spec's own choice (D10, D11). -/
def Obligations.WrittenWordsDecode : Prop :=
  decode 0b0000#4 = .instr .init ∧
  decode 0b0010#4 = .instr (.accept 0) ∧
  decode 0b0011#4 = .instr (.accept 1) ∧
  decode 0b0100#4 = .instr .status ∧
  decode 0b0110#4 = .instr .buffer ∧
  decode 0b1000#4 = .instr .reset

/-- Decoding and encoding are inverse to each other, each word selects at most one row of the opcode
table, and the decoder agrees with the table (R52; the encoding is the spec's own, D10). -/
def Obligations.DecodeEncodeAgree : Prop :=
  (∀ i : Instr, i.WellFormed → decode (encode i) = .instr i) ∧
  (∀ (w : CommandWord) (i : Instr), decode w = .instr i → i.WellFormed ∧ encode i = w) ∧
  (∀ (w : CommandWord) (i : Instr), decode w = .instr i →
    ∃ r ∈ opcodeTable, r.mnemonic = i.mnemonic ∧ r.selects w = true) ∧
  (∀ (w : CommandWord), ∀ r ∈ opcodeTable, r.selects w = true → ∃ i, decode w = .instr i) ∧
  (∀ (w : CommandWord), ∀ r ∈ opcodeTable, ∀ r' ∈ opcodeTable,
    r.selects w = true → r'.selects w = true → r = r')

/-- The ten reserved words of R51 are refused in every state, whoever issues them; the six others are
executed (decision D12). -/
def Obligations.ReservedWordsAreRefused : Prop :=
  ∀ (s : State) (agent : Agent) (w : CommandWord),
    (w ∈ [0x1#4, 0x5#4, 0x7#4, 0x9#4] →
      step (s.present (.word agent w)) = .refused (.reservedWord w .operandBitSet)) ∧
    (w ∈ [0xA#4, 0xB#4, 0xC#4, 0xD#4, 0xE#4, 0xF#4] →
      step (s.present (.word agent w)) = .refused (.reservedWord w .unassignedOp)) ∧
    (w ∈ [0x0#4, 0x2#4, 0x3#4, 0x4#4, 0x6#4, 0x8#4] →
      ∃ i, step (s.present (.word agent w)) = exec i s)

/-! ### The step -/

/-- One step is one whole operation (R10, decision D1): the first stimulus waiting, decoded if it is a
word, is executed on the state with that stimulus taken off; with none waiting nothing changes. -/
def Obligations.StepRunsTheDecodedOperation : Prop :=
  (∀ (s : State) (agent : Agent) (w : CommandWord) (rest : List Stimulus) (i : Instr),
    s.input = .word agent w :: rest → decode w = .instr i →
      step s = exec i { s with input := rest }) ∧
  (∀ (s : State) (agent : Agent) (rest : List Stimulus) (i : Instr),
    s.input = .call agent i :: rest → step s = exec i { s with input := rest }) ∧
  (∀ s : State, s.input = [] → step s = .next s)

/-- A word presented by `withFetchWord` is the next one executed, and it is the operation
`decodeTableWord` reads (the model's interface, log entry 4). -/
def Obligations.PresentedWordRunsNext : Prop :=
  ∀ (s : State) (nbits w : Nat) (i : Instr),
    decodeTableWord nbits w = some i → step (s.withFetchWord nbits w) = exec i s

/-- The block does not know which agent issues an operation (R100, decision D28). -/
def Obligations.AgentsAreNotToldApart : Prop :=
  ∀ (s : State) (a a' : Agent) (w : CommandWord) (i : Instr),
    step (s.present (.word a w)) = step (s.present (.word a' w)) ∧
    step (s.present (.call a i)) = step (s.present (.call a' i))

/-- A hardware reset input has exactly the effect of INIT, and an operation in the same step is lost
(R107, R97; decisions D9, D26). Where what is lost is a reserved word, that it is lost and not refused
is this model's choice (log entry 13). -/
def Obligations.ResetInputActsAsInit : Prop :=
  ∀ (s : State) (lost : Option CommandWord),
    step (s.present (.resetInput lost)) = exec .init s

/-- No state survives a loss of power: what the elements hold afterwards does not depend on what they
held, no INIT has happened, and INIT makes the block usable again (R105; R25, decision D8). The model's
own: power loss as a stimulus (log entry 14), and the clause that the two next states agree, which
rests on equal draw counts giving equal free values (log entry 3); no value of a free value is used. -/
def Obligations.NoStateSurvivesPowerLoss : Prop :=
  ∀ s s' : State, s'.cfg = s.cfg → s'.fresh = s.fresh →
    ∃ t t', step (s.present .powerLoss) = .next t ∧ step (s'.present .powerLoss) = .next t' ∧
      t.inited = false ∧ t.SameElements t' ∧ t.response = .nothing ∧
      ∃ u, exec .init t = .next u ∧ u.Initial

/-! ### Initial state and invariants -/

/-- The state after reset holds the values of R27's table, for every capacity, and meets the
invariants; the power-on state has `inited` false and meets what is asked of every state. -/
def Obligations.ResetAndPowerOnStatesMeetInv : Prop :=
  State.reset.cfg.capacity = 10 ∧ State.reset.Initial ∧ State.reset.Ready ∧
  ∀ cfg : Config, (State.resetOf cfg).Initial ∧ (State.resetOf cfg).Ready ∧
    (State.powerOn cfg).inited = false ∧ (State.powerOn cfg).Inv

/-- Every step keeps the invariants: the buffer's canonical form and range, the width of `fill_index`,
and, once `inited` is set, R21 to R23 (R81 says so of ACCEPT). -/
def Obligations.StepKeepsInv : Prop :=
  ∀ s t : State, s.Inv → step s = .next t → t.Inv

/-- R21 and R22 at every operation boundary from the first INIT or RESET onward, whatever the state
before it and whatever operations follow. -/
def Obligations.StatusIsFunctionOfFill : Prop :=
  ∀ (s t : State) (i : Instr) (ops : List Instr) (rs : List Response),
    beginsCycle i = true → runOps (i :: ops) s = .next (t, rs) →
      (t.status = .full ↔ t.fillIndex = t.cfg.capacity) ∧
      (t.status = .empty ↔ t.fillIndex = 0 ∧ t.cnt = 0#3) ∧
      (t.status = .filling ↔
        t.fillIndex < t.cfg.capacity ∧ (0 < t.fillIndex ∨ t.cnt ≠ 0#3)) ∧
      t.status = statusFor t.cfg t.fillIndex t.cnt

/-- No operation changes `CAPACITY` (R110). -/
def Obligations.CapacityNeverChanges : Prop :=
  (∀ s t : State, step s = .next t → t.cfg = s.cfg) ∧
  (∀ (s t : State) (ops : List Instr) (rs : List Response),
    runOps ops s = .next (t, rs) → t.cfg = s.cfg)

/-! ### INIT and RESET -/

/-- R60: from every state, INIT zeroes every element, sets `status` Empty and `inited`, returns
nothing and violates no contract; a following STATUS returns Empty. Only between the sub-steps of an
ACCEPT is it CV4. Its word is the spec's own choice (D10, D11), as is its effect on a block already in
use (D18); the sub-step machine is log entry 16's. -/
def Obligations.InitZeroesEverything : Prop :=
  encode .init = 0b0000#4 ∧
  ∀ s : State, ∃ t, exec .init s = .next t ∧ t.Initial ∧ t.buf = [] ∧ s.SameSurroundings t ∧
    t.response = .nothing ∧ (∃ u, exec .status t = .next u ∧ u.response = .status .empty) ∧
    ∀ r : Refined, r.inFlight ≠ [] → r.issue .init = .refused .resetDuringAccept

/-- R61: any number of further INITs is harmless, and at least one INIT must come before the first
ACCEPT, STATUS or BUFFER (decision D8). What an operation before it does is this model's reading of U2:
an ACCEPT faults (log entry 7), a STATUS or a BUFFER completes with the run marked (log entry 8). -/
def Obligations.InitIsIdempotent : Prop :=
  (∀ (s : State) (n : Nat), ∃ t rs, exec .init s = .next t ∧
    runOps (List.replicate (n + 1) .init) s = .next (t, rs)) ∧
  (∀ (s : State) (b : Bit), s.inited = false →
    exec (.accept b.toNat) s = .fault .acceptBeforeInit ∧
    (∃ t, exec .status s = .next t ∧ t.violated = true) ∧
    (∃ t, exec .buffer s = .next t ∧ t.violated = true))

/-- R63: RESET is identical to INIT from every state: it zeroes every element and discards all that was
collected. From Full nothing but RESET (or INIT) leads out. Only between the sub-steps of an ACCEPT is
it CV4. Its word is the spec's own choice (D10, D11), as is a RESET before the first INIT (D17); the
sub-step machine is log entry 16's. -/
def Obligations.ResetIsIdenticalToInit : Prop :=
  encode .reset = 0b1000#4 ∧
  (∀ s : State, exec .reset s = exec .init s ∧ ∃ t, exec .reset s = .next t ∧ t.Initial ∧
    s.SameSurroundings t ∧ t.response = .nothing) ∧
  (∀ (s t : State) (i : Instr), s.inited = true → s.status = .full → exec i s = .next t →
    t.status ≠ .full → i = .reset ∨ i = .init) ∧
  (∀ r : Refined, r.inFlight ≠ [] → r.issue .reset = .refused .resetDuringAccept)

/-- After INIT or RESET pairing starts afresh: the next raw bit is the first of a new pair, whatever
was waiting, collected or dropped before (R65). -/
def Obligations.RestartDiscardsEverything : Prop :=
  ∀ (s : State) (i : Instr) (b : Bit), beginsCycle i = true →
    ∃ t u, exec i s = .next t ∧ exec (.accept b.toNat) t = .next u ∧ (∀ k, u.buf.read k = 0x00#8) ∧
      u.bitCursor = 0 ∧ u.acc = 0x00#8 ∧ u.pairValid = true ∧ u.pairBit = b ∧ u.status = .empty

/-- R66: from any two moments just after INIT or RESET, the same ACCEPT operands with STATUS and BUFFER
at the same places lead to the same state in every field and the same results. -/
def Obligations.SameBitsGiveSameResults : Prop :=
  ∀ (s s' : State) (i i' : Instr) (ops : List Instr),
    s'.cfg = s.cfg → beginsCycle i = true → beginsCycle i' = true → withinCycle ops = true →
      ∃ t t' rs, runOps (i :: ops) s = .next (t, rs) ∧ runOps (i' :: ops) s' = .next (t', rs) ∧
        t.SameElements t'

/-! ### ACCEPT -/

/-- R69: the six cases A to F, each with the whole next state. -/
def Obligations.AcceptSixCases : Prop :=
  ∀ (s : State) (b : Bit), s.Ready →
    (s.status = .full →
      exec (.accept b.toNat) s = .next { s with response := .nothing }) ∧
    (s.status ≠ .full → s.pairValid = false →
      exec (.accept b.toNat) s =
        .next { s with pairValid := true, pairBit := b, response := .nothing }) ∧
    (s.status ≠ .full → s.pairValid = true → s.pairBit = b →
      exec (.accept b.toNat) s =
        .next { s with pairValid := false, pairBit := 0#1, response := .nothing }) ∧
    (s.status ≠ .full → s.pairValid = true → s.pairBit ≠ b → s.cnt.toNat < 7 →
      exec (.accept b.toNat) s =
        .next
          { s with
            pairValid := false, pairBit := 0#1
            acc := s.acc ||| (s.pairBit.setWidth 8 <<< s.cnt.toNat), cnt := s.cnt + 1#3
            status := .filling, response := .nothing }) ∧
    (s.status ≠ .full → s.pairValid = true → s.pairBit ≠ b → s.cnt.toNat = 7 →
      s.fillIndex + 1 < s.cfg.capacity →
      exec (.accept b.toNat) s =
        .next
          { s with
            pairValid := false, pairBit := 0#1, acc := 0x00#8, cnt := 0#3
            buf := s.buf.write s.fillIndex (s.acc ||| (s.pairBit.setWidth 8 <<< 7))
            fillIndex := s.fillIndex + 1, status := .filling, response := .nothing }) ∧
    (s.status ≠ .full → s.pairValid = true → s.pairBit ≠ b → s.cnt.toNat = 7 →
      s.fillIndex + 1 = s.cfg.capacity →
      exec (.accept b.toNat) s =
        .next
          { s with
            pairValid := false, pairBit := 0#1, acc := 0x00#8, cnt := 0#3
            buf := s.buf.write s.fillIndex (s.acc ||| (s.pairBit.setWidth 8 <<< 7))
            fillIndex := s.cfg.capacity, status := .full, response := .nothing })

/-- ACCEPT before the first INIT or RESET is CV2 and its resulting state has no value; there are no other
preconditions (R70). That the model answers a fault is its reading of U2 (decision D27; log entry 7). -/
def Obligations.AcceptNeedsInit : Prop :=
  (∀ (s : State) (b : Bit), s.inited = false →
    exec (.accept b.toNat) s = .fault .acceptBeforeInit) ∧
  (∀ (s : State) (b : Bit), s.Ready → ∃ t, exec (.accept b.toNat) s = .next t)

/-- R71: while Full an ACCEPT changes no state at all; the Full check comes before the slot is looked
at, and the slot is empty throughout. -/
def Obligations.FullDropsRawBit : Prop :=
  (∀ (s : State) (b : Bit), s.inited = true → s.status = .full →
    exec (.accept b.toNat) s = .next { s with response := .nothing }) ∧
  (∀ s : State, s.Ready → s.status = .full → s.pairValid = false ∧ s.pairBit = 0#1)

/-- R72: with an empty slot the raw bit waits in it and nothing else happens; `status` stays. -/
def Obligations.FirstBitOfPairWaits : Prop :=
  ∀ (s : State) (b : Bit), s.inited = true → s.status ≠ .full → s.pairValid = false →
    exec (.accept b.toNat) s =
      .next { s with pairValid := true, pairBit := b, response := .nothing }

/-- R73: the second bit of a pair empties the slot and is not kept; raw bits since INIT or RESET are
grouped (1st, 2nd), (3rd, 4th), and so on. -/
def Obligations.PairsDoNotOverlap : Prop :=
  (∀ (s : State) (b : Bit), s.Ready → s.status ≠ .full → s.pairValid = true →
    ∃ t, exec (.accept b.toNat) s = .next t ∧ t.pairValid = false ∧ t.pairBit = 0#1 ∧
      (t.status ≠ .full → ∀ c : Bit, ∃ u, exec (.accept c.toNat) t = .next u ∧
        u.pairValid = true ∧ u.pairBit = c)) ∧
  (∀ (s : State) (i : Instr) (r : List Bit), beginsCycle i = true →
    ∃ t rs, runOps (i :: feed r) s = .next (t, rs) ∧
      (t.status ≠ .full →
        (r.length % 2 = 0 → t.pairValid = false) ∧
        (r.length % 2 = 1 → t.pairValid = true ∧ some t.pairBit = r.getLast?)))

/-- R74: an equal pair produces nothing; the only change is the emptying of the slot, so that feeding
`0,0` or `1,1` into an empty slot leaves every element as it was. -/
def Obligations.EqualPairIsDiscarded : Prop :=
  (∀ (s : State) (b : Bit), s.inited = true → s.status ≠ .full → s.pairValid = true →
    s.pairBit = b →
    exec (.accept b.toNat) s =
      .next { s with pairValid := false, pairBit := 0#1, response := .nothing }) ∧
  (∀ (s : State) (b : Bit), s.Ready → s.status ≠ .full → s.pairValid = false →
    ∃ t rs, runOps (feed [b, b]) s = .next (t, rs) ∧ s.SameElements t)

/-- R75: a differing pair produces one corrected bit, the first of the pair, which is the complement of
the second; it is the next bit stored, and no stored bit changes. No other pair or bit produces one. -/
def Obligations.DifferingPairEmitsFirstBit : Prop :=
  (∀ (s : State) (b : Bit), s.Ready → s.status ≠ .full → s.pairValid = true → s.pairBit ≠ b →
    ∃ t, exec (.accept b.toNat) s = .next t ∧ t.pairValid = false ∧ t.pairBit = 0#1 ∧
      t.bitCursor = s.bitCursor + 1 ∧ t.storedBit s.bitCursor = s.pairBit.getLsbD 0 ∧
      s.pairBit = ~~~b ∧ ∀ n, n < s.bitCursor → t.storedBit n = s.storedBit n) ∧
  (∀ (s : State) (b : Bit), s.Ready → s.status ≠ .full → (s.pairValid = true → s.pairBit = b) →
    ∃ t, exec (.accept b.toNat) s = .next t ∧ t.bitCursor = s.bitCursor ∧
      ∀ n, t.storedBit n = s.storedBit n)

/-- R76: a corrected bit goes to position `cnt` of `acc`, disturbs no other position, and `cnt` goes up
by one; at `cnt = 7` the byte so made is the one committed. -/
def Obligations.CorrectedBitGoesToPositionCnt : Prop :=
  ∀ (s : State) (b : Bit), s.Ready → s.status ≠ .full → s.pairValid = true → s.pairBit ≠ b →
    ∃ t, exec (.accept b.toNat) s = .next t ∧
      (s.cnt.toNat < 7 →
        t.acc = s.acc ||| (s.pairBit.setWidth 8 <<< s.cnt.toNat) ∧
        t.cnt.toNat = s.cnt.toNat + 1 ∧
        t.acc.getLsbD s.cnt.toNat = s.pairBit.getLsbD 0 ∧
        ∀ j, j ≠ s.cnt.toNat → t.acc.getLsbD j = s.acc.getLsbD j) ∧
      (s.cnt.toNat = 7 →
        t.buf.read s.fillIndex = s.acc ||| (s.pairBit.setWidth 8 <<< s.cnt.toNat) ∧
        (t.buf.read s.fillIndex).getLsbD 7 = s.pairBit.getLsbD 0 ∧
        ∀ j, j < 7 → (t.buf.read s.fillIndex).getLsbD j = s.acc.getLsbD j)

/-- R77: the eighth bit commits the byte at `fill_index`, which is in range; exactly one byte is
written; the cursor advances and the accumulator is emptied in the same ACCEPT. -/
def Obligations.EighthBitCommitsByte : Prop :=
  ∀ (s : State) (b : Bit), s.Ready → s.status ≠ .full → s.pairValid = true → s.pairBit ≠ b →
    s.cnt = 7#3 →
    s.fillIndex < s.cfg.capacity ∧
    ∃ t, exec (.accept b.toNat) s = .next t ∧
      t.buf.read s.fillIndex = s.acc ||| (s.pairBit.setWidth 8 <<< 7) ∧
      (∀ k, k < 8 → (t.buf.read s.fillIndex).getLsbD k =
        if k = 7 then s.pairBit.getLsbD 0 else s.acc.getLsbD k) ∧
      (∀ j, j ≠ s.fillIndex → t.buf.read j = s.buf.read j) ∧
      t.fillIndex = s.fillIndex + 1 ∧ t.acc = 0x00#8 ∧ t.cnt = 0#3

/-- R78: ACCEPT writes `status` in two ways only, and never sets it to Empty. -/
def Obligations.AcceptWritesStatusTwoWays : Prop :=
  ∀ (s : State) (b : Bit), s.Ready → ∃ t, exec (.accept b.toNat) s = .next t ∧
    (s.status ≠ .full → s.pairValid = true → s.pairBit ≠ b →
      t.status = if t.fillIndex = s.cfg.capacity then .full else .filling) ∧
    (s.status = .full ∨ s.pairValid = false ∨ s.pairBit = b → t.status = s.status) ∧
    (t.status = .empty → s.status = .empty)

/-- The frame of ACCEPT (R16, R34, R67, R69): the byte at `fill_index` is the only one it can store to,
and only in a commit; the accumulator and `status` change only when a corrected bit is emitted;
`inited` and all that the model adds stay, but for the result, which is nothing. -/
def Obligations.AcceptFrame : Prop :=
  ∀ (s : State) (b : Bit), s.Ready → ∃ t, exec (.accept b.toNat) s = .next t ∧
    s.SameSurroundings t ∧ t.inited = s.inited ∧ t.response = .nothing ∧
    (s.status ≠ .full ∧ s.pairValid = true ∧ s.pairBit ≠ b ∧ s.cnt = 7#3 →
      ∀ a, a ≠ s.fillIndex → t.buf.read a = s.buf.read a) ∧
    (¬(s.status ≠ .full ∧ s.pairValid = true ∧ s.pairBit ≠ b ∧ s.cnt = 7#3) →
      (∀ a, t.buf.read a = s.buf.read a) ∧ t.fillIndex = s.fillIndex) ∧
    (¬(s.status ≠ .full ∧ s.pairValid = true ∧ s.pairBit ≠ b) →
      t.acc = s.acc ∧ t.cnt = s.cnt ∧ t.status = s.status)

/-- A raw bit outside 0 and 1 is refused before anything else, in every state, initialised or not
(R49, R97; decisions D15, D26; this model's operand type, log entry 6). -/
def Obligations.RawBitOutsideRangeIsRefused : Prop :=
  ∀ (s : State) (b : Nat), 2 ≤ b → exec (.accept b) s = .refused (.rawBitOutsideRange b)

/-! ### STATUS and BUFFER -/

/-- R87: STATUS returns the stored `status` and writes no state; a waiting raw bit alone leaves it
Empty; Filling says only that a corrected bit is stored and the buffer not full; Full is final until
RESET or INIT. Its word is the spec's own choice (D10, D11). Before the first INIT or RESET it is CV2;
that it then completes with some value and the run marked is this model's reading of U2 (log entry 8). -/
def Obligations.StatusReturnsStoredValue : Prop :=
  encode .status = 0b0100#4 ∧
  (∀ s : State, s.inited = true →
    exec .status s = .next { s with response := .status s.status }) ∧
  (∀ s : State, s.Ready → s.fillIndex = 0 → s.cnt = 0#3 → s.pairValid = true →
    ∃ t, exec .status s = .next t ∧ t.response = .status .empty) ∧
  (∀ s : State, s.Ready → s.status = .filling →
    0 < s.bitCursor ∧ s.bitCursor < 8 * s.cfg.capacity) ∧
  (∀ (s : State) (r : List Bit), s.Ready → s.status = .full →
    ∃ t rs, runOps (feed r ++ [.status]) s = .next (t, rs) ∧ t.response = .status .full) ∧
  (∀ s : State, s.inited = false → ∃ t st, exec .status s = .next t ∧ t.response = .status st ∧
    t.violated = true ∧ t.inited = false ∧ t.cfg = s.cfg ∧ t.input = s.input)

/-- R88: the result of STATUS is the value at its own step, and Full persists: from a Full block,
within the collection cycle, every later STATUS returns Full. -/
def Obligations.StatusIsSnapshotAndFullPersists : Prop :=
  (∀ (s t : State), s.inited = true → exec .status s = .next t → t.response = .status s.status) ∧
  (∀ (s : State) (ops : List Instr), s.Ready → s.status = .full → withinCycle ops = true →
    ∃ t rs, runOps ops s = .next (t, rs) ∧ t.status = .full ∧
      ∀ st, Response.status st ∈ rs → st = .full)

/-- R89: BUFFER returns the `CAPACITY` bytes in order and writes no state, whatever `status` is; its
word is the spec's own choice (D10, D11). Before the first INIT or RESET it is CV2; that it then
completes with some `CAPACITY` bytes and the run marked is this model's reading of U2 (log entry 8). -/
def Obligations.BufferReturnsBytes : Prop :=
  encode .buffer = 0b0110#4 ∧
  (∀ s : State, s.inited = true → ∃ bytes : List Byte,
    exec .buffer s = .next { s with response := .view bytes } ∧ bytes.length = s.cfg.capacity ∧
      ∀ i, i < s.cfg.capacity → bytes[i]? = some (s.buf.read i)) ∧
  (∀ s : State, s.inited = false → ∃ t bytes, exec .buffer s = .next t ∧
    t.response = .view bytes ∧ bytes.length = s.cfg.capacity ∧ t.violated = true ∧
    t.inited = false ∧ t.cfg = s.cfg ∧ t.input = s.input)

/-- R90: BUFFER changes no state; it does not return the block to Empty, which only INIT and RESET
do. -/
def Obligations.BufferChangesNoState : Prop :=
  (∀ s : State, s.inited = true →
    ∃ t, exec .buffer s = .next t ∧ s.SameElements t ∧ s.SameSurroundings t) ∧
  (∀ (s t : State) (i : Instr), s.inited = true → exec i s = .next t → s.status ≠ .empty →
    t.status = .empty → beginsCycle i = true)

/-- R91: BUFFER before Full is the caller's contract violation CV3, but no fault, and it marks nothing:
committed bytes are shown, the rest reads 0x00, and the bits in the accumulator are not in the view. -/
def Obligations.PrematureReadIsDefined : Prop :=
  ∀ s : State, s.Ready → s.status ≠ .full →
    ∃ bytes : List Byte, exec .buffer s = .next { s with response := .view bytes } ∧
      bytes.length = s.cfg.capacity ∧
      (∀ k, k < s.cfg.capacity →
        bytes[k]? = some (if k < s.fillIndex then s.buf.read k else 0x00#8)) ∧
      ∀ (a : Byte) (c : BitVec 3),
        exec .buffer { s with acc := a, cnt := c } =
          .next { s with acc := a, cnt := c, response := .view bytes }

/-- R35: reads have no side effects, and reading twice with no operation between returns the same
value. This is the frame of STATUS and of BUFFER. -/
def Obligations.ReadsHaveNoSideEffects : Prop :=
  ∀ (s : State) (i : Instr), s.inited = true → i = .status ∨ i = .buffer →
    ∃ t u, exec i s = .next t ∧ s.SameElements t ∧ s.SameSurroundings t ∧
      exec i t = .next u ∧ u.response = t.response ∧ s.SameElements u

/-- R54: INIT, ACCEPT and RESET return nothing; ACCEPT does not report what became of the raw bit. -/
def Obligations.WritersReturnNothing : Prop :=
  ∀ (s t : State) (i : Instr), i ≠ .status → i ≠ .buffer → exec i s = .next t →
    t.response = .nothing

/-- Hidden state cannot be seen: STATUS and BUFFER return the same in two states that agree in `status`,
in the bytes of the buffer and in the parameter (R26). -/
def Obligations.HiddenStateIsNotVisible : Prop :=
  ∀ s s' : State, s.inited = true → s'.inited = true → s'.cfg = s.cfg → s'.status = s.status →
    (∀ k, k < s.cfg.capacity → s'.buf.read k = s.buf.read k) →
    ∃ t t' u u', exec .status s = .next t ∧ exec .status s' = .next t' ∧
      t'.response = t.response ∧ exec .buffer s = .next u ∧ exec .buffer s' = .next u' ∧
      u'.response = u.response

/-! ### Contract violations -/

/-- R93: an operation issued within the contracts of R94 always succeeds, raises nothing and marks
nothing; so does any sequence of them. -/
def Obligations.ContractedOperationsSucceed : Prop :=
  ∀ (s : State) (ops : List Instr), s.Inv → contractKept s.inited ops = true →
    ∃ t rs, runOps ops s = .next (t, rs) ∧ t.Inv ∧ t.violated = s.violated ∧
      rs.length = ops.length ∧ (s.violated = false → safeRun ops s = true)

/-- The mark of a violation stays for the rest of the run, though INIT or RESET restores a defined
state (R95, U2; decision D27). -/
def Obligations.ViolationMarkStays : Prop :=
  (∀ s t : State, step s = .next t → s.violated = true → t.violated = true) ∧
  (∀ s : State, s.inited = false →
    ∃ t u, exec .status s = .next t ∧ exec .init t = .next u ∧ u.Initial ∧ u.violated = true) ∧
  (∀ s : State, s.inited = false →
    ∃ t u, exec .buffer s = .next t ∧ exec .reset t = .next u ∧ u.Initial ∧ u.violated = true)

/-! ### Laws over sequences -/

/-- The bit cursor: INIT and RESET set it to 0, an ACCEPT that emits adds exactly 1, nothing else moves
it, and it never passes `8 * CAPACITY` (R24, decision D5). -/
def Obligations.BitCursorMoves : Prop :=
  ∀ (s t : State) (i : Instr), s.Ready → exec i s = .next t →
    (beginsCycle i = true → t.bitCursor = 0) ∧
    (i = .status ∨ i = .buffer → t.bitCursor = s.bitCursor) ∧
    (∀ b : Bit, i = .accept b.toNat → t.bitCursor =
      if s.status ≠ .full ∧ s.pairValid = true ∧ s.pairBit ≠ b then s.bitCursor + 1
      else s.bitCursor) ∧
    t.bitCursor ≤ 8 * t.cfg.capacity ∧ (t.bitCursor = 8 * t.cfg.capacity ↔ t.status = .full)

/-- The state machine of `status`, edge by edge (R79, decision D24); there is no edge from Empty to
Full. -/
def Obligations.StatusStateMachine : Prop :=
  ∀ (s t : State) (i : Instr), s.Ready → exec i s = .next t →
    (beginsCycle i = true → t.status = .empty) ∧
    (i = .status ∨ i = .buffer → t.status = s.status) ∧
    (∀ b : Bit, i = .accept b.toNat →
      (s.status = .empty → t.status =
        if s.pairValid = true ∧ s.pairBit ≠ b then .filling else .empty) ∧
      (s.status = .filling → t.status =
        if s.pairValid = true ∧ s.pairBit ≠ b ∧ s.cnt = 7#3 ∧ s.fillIndex + 1 = s.cfg.capacity
        then .full else .filling) ∧
      (s.status = .full → t.status = .full))

/-- R85: once Full, any number of ACCEPTs with any operands leave the whole state as it was. -/
def Obligations.FullIsIdempotent : Prop :=
  ∀ (s : State) (r : List Bit), s.inited = true → s.status = .full →
    ∃ t rs, runOps (feed r) s = .next (t, rs) ∧ { t with response := s.response } = s

/-- Committed bytes do not change within a collection cycle, `fill_index` never decreases there, and
once Full no byte changes (R36). -/
def Obligations.CommittedBytesAreStable : Prop :=
  ∀ (s : State) (ops : List Instr), s.Ready → withinCycle ops = true →
    ∃ t rs, runOps ops s = .next (t, rs) ∧ s.fillIndex ≤ t.fillIndex ∧
      (∀ k, k < s.fillIndex → t.buf.read k = s.buf.read k) ∧
      (s.status = .full → ∀ k, t.buf.read k = s.buf.read k)

/-- No guarantee of progress: a stream of equal pairs, of any length, never moves the bit cursor and
never changes `status` (R80(a), R116). -/
def Obligations.EqualPairsMakeNoProgress : Prop :=
  ∀ (s : State) (r : List Bit), s.Ready → s.pairValid = false → differing r = [] →
    ∃ t rs, runOps (feed r) s = .next (t, rs) ∧ t.status = s.status ∧ t.bitCursor = s.bitCursor ∧
      ∀ k, t.buf.read k = s.buf.read k

/-- R82: the number of corrected bits produced, which is the growth of the bit cursor from 0, equals
the number of differing pairs, when no ACCEPT begins on a Full block. -/
def Obligations.CorrectedBitsCountDifferingPairs : Prop :=
  ∀ (s : State) (i : Instr) (r : List Bit), beginsCycle i = true →
    (∀ k u rs, k < r.length → runOps (i :: feed (r.take k)) s = .next (u, rs) →
      u.status ≠ .full) →
    ∃ t rs, runOps (i :: feed r) s = .next (t, rs) ∧ t.bitCursor = (differing r).length

/-- R83: after INIT or RESET, STATUS returns Empty until the first differing pair is completed, and
Filling right after the ACCEPT that completes it. -/
def Obligations.EmptyUntilFirstCorrectedBit : Prop :=
  (∀ (s : State) (i : Instr) (r : List Bit), beginsCycle i = true → differing r = [] →
    ∃ t rs, runOps (i :: feed r ++ [.status]) s = .next (t, rs) ∧ t.response = .status .empty) ∧
  (∀ (s : State) (i : Instr) (r : List Bit) (b : Bit), beginsCycle i = true →
    differing r = [] → differing (r ++ [b]) ≠ [] →
    ∃ t rs, runOps (i :: feed (r ++ [b]) ++ [.status]) s = .next (t, rs) ∧
      t.response = .status .filling)

/-- R84: `16 * CAPACITY` raw bits forming `8 * CAPACITY` differing pairs take the block from Empty
through Filling to Full, each at its stated moment, and BUFFER then returns the packed bytes. -/
def Obligations.FillingTheWholeBuffer : Prop :=
  ∀ (s : State) (i : Instr) (r : List Bit), beginsCycle i = true →
    r.length = 16 * s.cfg.capacity → (differing r).length = 8 * s.cfg.capacity →
    (∀ k, k ≤ r.length → ∃ t rs, runOps (i :: feed (r.take k)) s = .next (t, rs) ∧
      (k ≤ 1 → t.status = .empty) ∧
      (2 ≤ k → k < r.length → t.status = .filling) ∧
      (k = r.length → t.status = .full)) ∧
    (∃ t rs bytes, runOps (i :: feed r ++ [.buffer]) s = .next (t, rs) ∧
      t.response = .view bytes ∧ bytes.length = s.cfg.capacity ∧
      ∀ k, k < s.cfg.capacity → bytes[k]? = some (BitVec.ofNat 8
        ((List.range 8).map fun j => (r.getD (16 * k + 2 * j) 0#1).toNat <<< j).sum))

/-- The closed form of the state reached from just after INIT or RESET by any raw bits (R86). -/
def Obligations.ClosedFormOfState : Prop :=
  ∀ (s : State) (i : Instr) (r : List Bit), beginsCycle i = true →
    ∃ t rs, runOps (i :: feed r) s = .next (t, rs) ∧
      let e := correctedBits r
      let m := min e.length (8 * s.cfg.capacity)
      t.fillIndex = m / 8 ∧ t.cnt.toNat = m % 8 ∧
      (∀ k, k < t.fillIndex → t.buf.read k = packedByte e k) ∧
      (∀ k, t.fillIndex ≤ k → t.buf.read k = 0x00#8) ∧
      t.acc.toNat = packBits ((e.drop (8 * t.fillIndex)).take t.cnt.toNat) ∧
      t.status = (if m = 0 then .empty else if m = 8 * s.cfg.capacity then .full else .filling) ∧
      (m = 8 * s.cfg.capacity ∨ r.length % 2 = 0 → t.pairValid = false ∧ t.pairBit = 0#1) ∧
      (m ≠ 8 * s.cfg.capacity → r.length % 2 = 1 →
        t.pairValid = true ∧ some t.pairBit = r.getLast?) ∧
      (t.status = .full → 16 * s.cfg.capacity ≤ r.length)

/-- Corrected bit `e[n]` is bit `n mod 8` of `buf[n div 8]`, for every committed byte (R30, R31). -/
def Obligations.CorrectedBitPosition : Prop :=
  ∀ (s t : State) (i : Instr) (ops : List Instr) (rs : List Response) (n : Nat),
    beginsCycle i = true → withinCycle ops = true → runOps (i :: ops) s = .next (t, rs) →
    n < 8 * t.fillIndex →
      (correctedBits (rawBits ops))[n]?.map (fun e => e.getLsbD 0) =
        some ((t.buf.read (n / 8)).getLsbD (n % 8))

/-- R40, the publication guarantee: if a STATUS returns Full, every BUFFER after it and before the next
RESET or INIT returns all `CAPACITY` bytes, each built from its corrected bits by R31. -/
def Obligations.FullPublishesAllBytes : Prop :=
  ∀ (s t : State) (i : Instr) (ops later : List Instr) (rs : List Response),
    beginsCycle i = true → withinCycle ops = true → withinCycle later = true →
    runOps (i :: ops ++ [.status]) s = .next (t, rs) → t.response = .status .full →
    ∃ u rs' bytes, runOps (later ++ [.buffer]) t = .next (u, rs') ∧ u.response = .view bytes ∧
      bytes.length = s.cfg.capacity ∧
      ∀ k, k < s.cfg.capacity →
        bytes[k]? = some (packedByte (correctedBits (rawBits ops)) k)

/-- What a collection cycle delivers is a function of the raw bits up to the pair that filled the
buffer, and of nothing else: not of earlier cycles, of bits dropped while Full, or of when STATUS and
BUFFER were issued (R119). -/
def Obligations.CycleDeliversFunctionOfRawBits : Prop :=
  ∀ (s s' t : State) (i i' : Instr) (ops ops' : List Instr) (rs : List Response),
    s'.cfg = s.cfg → beginsCycle i = true → beginsCycle i' = true →
    withinCycle ops = true → withinCycle ops' = true →
    runOps (i :: ops) s = .next (t, rs) → t.isFull = true → rawBits ops <+: rawBits ops' →
    ∃ t' rs', runOps (i' :: ops') s' = .next (t', rs') ∧ t'.isFull = true ∧
      t'.observation = t.observation

/-- The end of a run is the first step at which `status` is Full; the pair that filled the buffer ends
there, and STATUS and BUFFER then return what is observed, Full and the `CAPACITY` bytes the raw bits up
to that step give. A run need not have an end (R119, R116; decision D31; the form is log entry 22's). -/
def Obligations.EndOfRunIsFirstFull : Prop :=
  ∀ (s : State) (i : Instr) (ops : List Instr), beginsCycle i = true → withinCycle ops = true →
    (∃ e, runToEnd (i :: ops) s = .next e) ∧
    (∀ n t, runToEnd (i :: ops) s = .next (some (n, t)) →
      let e := correctedBits (rawBits ((i :: ops).take n))
      (∃ rs, runOps ((i :: ops).take n) s = .next (t, rs)) ∧
      (∀ k u rs, 1 ≤ k → k < n → runOps ((i :: ops).take k) s = .next (u, rs) →
        u.status ≠ .full) ∧
      e.length = 8 * s.cfg.capacity ∧
      t.observation = (.full, (List.range s.cfg.capacity).map (packedByte e)) ∧
      (∃ u, exec .status t = .next u ∧ u.response = .status t.observation.1) ∧
      (∃ u, exec .buffer t = .next u ∧ u.response = .view t.observation.2)) ∧
    (runToEnd (i :: ops) s = .next none → ∀ k u rs, 1 ≤ k →
      runOps ((i :: ops).take k) s = .next (u, rs) → u.status ≠ .full)

/-! ### Results on wires and the pseudo-operations -/

/-- On a wide bus `buf[i]` stands in bits `8i+7 : 8i` (R56, decision D13), and the status codes are
Empty 0, Filling 1, Full 2, with 3 never sent and refused (R55, decision D4). -/
def Obligations.ResultsOnWires : Prop :=
  (∀ (bytes : List Byte) (i j : Nat) (b : Byte), bytes[i]? = some b → j < 8 →
    (viewBus bytes).getLsbD (8 * i + j) = b.getLsbD j) ∧
  (∀ st : Status, statusOfCode (statusCode st) = some st ∧ statusCode st ≠ 0b11#2) ∧
  statusCode .empty = 0b00#2 ∧ statusCode .filling = 0b01#2 ∧ statusCode .full = 0b10#2 ∧
  statusOfCode 0b11#2 = none

/-- `BUFRD i` reads byte `i` and changes no state, is refused outside the buffer, and once Full gives
the same byte whatever operations of the cycle fall between two reads (R58, R92; decisions D14, D16). -/
def Obligations.ByteReadsThroughTheView : Prop :=
  (∀ (s : State) (i : Nat), s.inited = true → i < s.cfg.capacity →
    ∃ t, bufrd i s = .next (t, s.buf.read i) ∧ s.SameElements t) ∧
  (∀ (s : State) (i : Nat), s.cfg.capacity ≤ i →
    bufrd i s = .refused (.viewIndexOutsideBuffer i)) ∧
  (∀ (s : State) (i : Nat) (ops : List Instr), s.Ready → s.status = .full →
    i < s.cfg.capacity → withinCycle ops = true →
    ∃ t rs u, runOps ops s = .next (t, rs) ∧ bufrd i t = .next (u, s.buf.read i))

/-- POLL ends with an answer under its fuel, whatever operations of the cycle fall between its tries,
and the answer is whether the block is then Full (R58, R88, R116; its fuel is this model's, log entry
17). -/
def Obligations.PollAnswersWhetherFull : Prop :=
  ∀ (s : State) (between : List (List Instr)), s.Ready →
    (∀ ops ∈ between, withinCycle ops = true) →
    ∃ t answer, poll between s = .next (t, answer) ∧ t.Ready ∧
      (answer = true ↔ t.status = .full)

/-! ### Sub-steps -/

/-- Performed as sub-steps, an ACCEPT ends in the state of the one-step ACCEPT; until its last write a
STATUS returns the old `status`; the byte is stored before the cursor moves; and whoever sees Full sees
every byte. Part of the order R41 asks for (when the accumulator is emptied is not said here), of the
sub-step machine that is this model's own (log entry 16; decision D21). -/
def Obligations.SubStepsKeepCommitOrder : Prop :=
  ∀ (s : State) (b : Bit), s.Ready →
    ∃ r, Refined.issue (.accept b.toNat) { base := s, inFlight := [] } = .next r ∧
      exec (.accept b.toNat) s = .next r.finish.base ∧
      ∀ k, ∀ q : Refined, q = Refined.advance^[k] r →
        (k < r.inFlight.length → ∃ q', q.issue .status = .next q' ∧
          q'.base.response = .status s.status ∧ q'.inFlight = q.inFlight) ∧
        (r.inFlight.length ≤ k → q = r.finish) ∧
        (q.base.fillIndex ≠ s.fillIndex →
          q.base.buf.read s.fillIndex = r.finish.base.buf.read s.fillIndex) ∧
        (q.base.status = .full → ∀ i, q.base.buf.read i = r.finish.base.buf.read i)

/-- As whole operations RESET and ACCEPT have defined results in both orders; between the sub-steps of an
ACCEPT a RESET or INIT is CV4 (R43). That the sub-step machine, this model's own, refuses it is U4's
treatment (decision D27; log entry 16). -/
def Obligations.ResetAgainstAcceptInFlight : Prop :=
  (∀ (s : State) (b : Bit), s.Ready →
    (∃ t rs, runOps [.reset, .accept b.toNat] s = .next (t, rs) ∧ t.pairValid = true ∧
      t.pairBit = b ∧ t.bitCursor = 0) ∧
    (∃ t rs, runOps [.accept b.toNat, .reset] s = .next (t, rs) ∧ t.Initial)) ∧
  (∀ r : Refined, r.inFlight ≠ [] →
    r.issue .reset = .refused .resetDuringAccept ∧ r.issue .init = .refused .resetDuringAccept)
end

