-- ==== Sys2Proof/Laws/Memory.lean ====
section
/-! SUPPORT. The laws of byte access: a write is read back, leaves every other index alone, and keeps
the canonical form and the range of the buffer. -/

namespace Sys2Proof.Machine

@[simp] theorem Memory.read_nil (i : Nat) : Memory.read [] i = unlistedByte := rfl

theorem Memory.read_cons (c : Host.Cell) (m : Memory) (i : Nat) :
    Memory.read (c :: m) i = if c.1 = i then c.2 else Memory.read m i := rfl

/-- An index that is not listed reads as `unlistedByte`. -/
theorem Memory.read_of_notMem (m : Memory) (i : Nat) (h : ∀ c ∈ m, c.1 ≠ i) :
    m.read i = unlistedByte := by
  induction m with
  | nil => rfl
  | cons c m ih =>
    rw [Memory.read_cons, if_neg (h c (by simp))]
    exact ih fun d hd => h d (by simp [hd])

/-- Where an entry of a write comes from: it is the entry written, or it stood there before. -/
theorem Memory.mem_write {m : Memory} {i : Nat} {v : Byte} {c : Host.Cell}
    (h : c ∈ m.write i v) : (c = (i, v) ∧ v ≠ unlistedByte) ∨ (c ∈ m ∧ c.1 ≠ i) ∨
      (c ∈ m ∧ ∃ d ∈ m, d.1 = i ∨ i < d.1) := by
  induction m with
  | nil =>
    unfold Memory.write at h
    split at h
    · simp at h
    · exact .inl ⟨by simpa using h, ‹_›⟩
  | cons d m ih =>
    unfold Memory.write at h
    split at h
    · rcases List.mem_cons.mp h with rfl | h
      · exact .inr (.inl ⟨by simp, by omega⟩)
      · rcases ih h with h | ⟨h, hn⟩ | ⟨h, e, he, hi⟩
        · exact .inl h
        · exact .inr (.inl ⟨by simp [h], hn⟩)
        · exact .inr (.inr ⟨by simp [h], e, by simp [he], hi⟩)
    · split at h
      · split at h
        · exact .inr (.inr ⟨by simp [h], d, by simp, .inl ‹_›⟩)
        · rcases List.mem_cons.mp h with rfl | h
          · exact .inl ⟨rfl, ‹_›⟩
          · exact .inr (.inr ⟨by simp [h], d, by simp, .inl ‹_›⟩)
      · split at h
        · exact .inr (.inr ⟨h, d, by simp, .inr (by omega)⟩)
        · rcases List.mem_cons.mp h with rfl | h
          · exact .inl ⟨rfl, ‹_›⟩
          · exact .inr (.inr ⟨h, d, by simp, .inr (by omega)⟩)

/-- An entry of a write is the entry written or stood there before. -/
theorem Memory.mem_write_cases {m : Memory} {i : Nat} {v : Byte} {c : Host.Cell}
    (h : c ∈ m.write i v) : (c = (i, v) ∧ v ≠ unlistedByte) ∨ c ∈ m := by
  rcases Memory.mem_write h with h | ⟨h, _⟩ | ⟨h, _⟩
  · exact .inl h
  · exact .inr h
  · exact .inr h

/-- A write keeps the buffer within its indices. -/
theorem Memory.write_inRange {m : Memory} {n i : Nat} (v : Byte) (hm : m.inRange n) (hi : i < n) :
    (m.write i v).inRange n := by
  intro c hc
  rcases Memory.mem_write_cases hc with ⟨rfl, -⟩ | h
  · exact hi
  · exact hm c h

/-- A write keeps the canonical form. -/
theorem Memory.write_wf {m : Memory} (i : Nat) (v : Byte) (hm : m.wf) : (m.write i v).wf := by
  refine ⟨?_, fun c hc => ?_⟩
  · obtain ⟨hp, -⟩ := hm
    induction m with
    | nil => unfold Memory.write; split <;> simp
    | cons d m ih =>
      obtain ⟨hd, hp⟩ := List.pairwise_cons.mp hp
      unfold Memory.write
      split
      · refine List.pairwise_cons.mpr ⟨fun c hc => ?_, ih hp⟩
        rcases Memory.mem_write_cases hc with ⟨rfl, -⟩ | h
        · assumption
        · exact hd c h
      · split
        · split
          · exact hp
          · rename_i heq _
            exact List.pairwise_cons.mpr ⟨fun c hc => heq ▸ hd c hc, hp⟩
        · split
          · exact List.pairwise_cons.mpr ⟨hd, hp⟩
          · refine List.pairwise_cons.mpr ⟨fun c hc => ?_, List.pairwise_cons.mpr ⟨hd, hp⟩⟩
            rcases List.mem_cons.mp hc with rfl | hc
            · show i < c.1
              omega
            · have := hd c hc
              show i < c.1
              omega
  · rcases Memory.mem_write_cases hc with ⟨rfl, h⟩ | h
    · exact h
    · exact hm.2 c h

/-- What a byte reads as after a write. -/
theorem Memory.read_write {m : Memory} (hm : m.wf) (i : Nat) (v : Byte) (j : Nat) :
    (m.write i v).read j = if j = i then v else m.read j := by
  obtain ⟨hp, -⟩ := hm
  induction m with
  | nil =>
    unfold Memory.write
    split
    · subst_vars; split <;> rfl
    · simp only [Memory.read_cons, Memory.read_nil, eq_comm]
  | cons d m ih =>
    obtain ⟨hd, hp⟩ := List.pairwise_cons.mp hp
    have habove : ∀ k, k ≤ d.1 → Memory.read m k = unlistedByte := fun k hk =>
      Memory.read_of_notMem m k fun c hc => by have := hd c hc; omega
    unfold Memory.write
    split
    · rw [Memory.read_cons, Memory.read_cons, ih hp]
      split
      · rw [if_neg (by omega)]
      · rfl
    · split
      · split
        · subst_vars
          by_cases h : j = d.1
          · rw [if_pos h, habove j (by omega)]
          · rw [if_neg h, Memory.read_cons, if_neg (Ne.symm h)]
        · subst_vars
          rw [Memory.read_cons, Memory.read_cons]
          by_cases h : j = d.1
          · rw [if_pos h, if_pos h.symm]
          · rw [if_neg h, if_neg (Ne.symm h), if_neg (Ne.symm h)]
      · split
        · subst_vars
          by_cases h : j = i
          · rw [if_pos h, Memory.read_cons, if_neg (by omega), habove j (by omega)]
          · rw [if_neg h]
        · rw [Memory.read_cons]
          simp only [eq_comm]

/-- The byte written is read back (R28). -/
theorem Memory.read_write_same {m : Memory} (hm : m.wf) (i : Nat) (v : Byte) :
    (m.write i v).read i = v := by simp [Memory.read_write hm]

/-- A write leaves every other byte alone (R28). -/
theorem Memory.read_write_other {m : Memory} (hm : m.wf) {i j : Nat} (v : Byte) (h : j ≠ i) :
    (m.write i v).read j = m.read j := by simp [Memory.read_write hm, h]

/-! ### Whole buffers -/

theorem Memory.nil_wf : Memory.wf [] := ⟨List.Pairwise.nil, fun _ h => nomatch h⟩

theorem Memory.nil_inRange (n : Nat) : Memory.inRange [] n := fun _ h => nomatch h

theorem Memory.ofFn_wf (f : Nat → Byte) (n : Nat) : (Memory.ofFn f n).wf := by
  induction n with
  | zero => exact Memory.nil_wf
  | succ n ih => exact Memory.write_wf n (f n) ih

theorem Memory.ofFn_inRange (f : Nat → Byte) (n : Nat) : (Memory.ofFn f n).inRange n := by
  induction n with
  | zero => exact Memory.nil_inRange 0
  | succ n ih =>
    exact Memory.write_inRange (f n) (fun c hc => Nat.lt_succ_of_lt (ih c hc)) n.lt_succ_self

/-- A buffer made from a function holds it, and reads 0x00 beyond. -/
theorem Memory.read_ofFn (f : Nat → Byte) (n i : Nat) :
    (Memory.ofFn f n).read i = if i < n then f i else unlistedByte := by
  induction n with
  | zero => rfl
  | succ n ih =>
    rw [Memory.ofFn, Memory.read_write (Memory.ofFn_wf f n), ih]
    by_cases h : i = n
    · subst h; simp
    · simp only [if_neg h]
      congr 1
      exact propext ⟨fun h' => by omega, fun h' => by omega⟩

/-- Beyond its indices the buffer reads 0x00. -/
theorem Memory.read_outside {m : Memory} {n i : Nat} (hm : m.inRange n) (hi : n ≤ i) :
    m.read i = unlistedByte :=
  Memory.read_of_notMem m i fun c hc => by have := hm c hc; omega

@[simp] theorem Memory.length_bytes (m : Memory) (n : Nat) : (m.bytes n).length = n := by
  simp [Memory.bytes]

@[simp] theorem Memory.getElem_bytes (m : Memory) (n i : Nat) (h : i < (m.bytes n).length) :
    (m.bytes n)[i] = m.read i := by simp [Memory.bytes]

/-- Two buffers that read alike show the same bytes. -/
theorem Memory.bytes_congr {m m' : Memory} {n : Nat} (h : ∀ i, i < n → m.read i = m'.read i) :
    m.bytes n = m'.bytes n :=
  List.map_congr_left fun i hi => h i (List.mem_range.mp hi)

/-- Zeroing every byte by R60's loop of writes gives the empty list of entries, for a buffer in
canonical form within its indices: `State.cleared` and the loop agree. -/
theorem Memory.zero_loop_reads (m : Memory) (hm : m.wf) (n : Nat) :
    ((List.range n).foldl (fun t i => t.write i unlistedByte) m).wf ∧
    ∀ j, ((List.range n).foldl (fun t i => t.write i unlistedByte) m).read j =
      if j < n then unlistedByte else m.read j := by
  induction n with
  | zero => exact ⟨hm, fun j => by simp⟩
  | succ n ih =>
    rw [List.range_succ, List.foldl_append]
    refine ⟨Memory.write_wf _ _ ih.1, fun j => ?_⟩
    show Memory.read (Memory.write _ n unlistedByte) j = _
    rw [Memory.read_write ih.1, ih.2 j]
    by_cases h : j = n
    · subst h; simp
    · rw [if_neg h]
      congr 1
      exact propext ⟨fun h' => by omega, fun h' => by omega⟩

end Sys2Proof.Machine
end

