-- ==== Sys2Proof/Laws/State.lean ====
section
/-! SUPPORT. What each update of the state does to each field, so that no later proof unfolds one. -/

namespace Sys2Proof.Machine

/-! ### State.done -/

@[simp] theorem State.done_buf (r : Response) (s : State) : (s.done r).buf = s.buf := rfl

@[simp] theorem State.done_fillIndex (r : Response) (s : State) : (s.done r).fillIndex = s.fillIndex := rfl

@[simp] theorem State.done_acc (r : Response) (s : State) : (s.done r).acc = s.acc := rfl

@[simp] theorem State.done_cnt (r : Response) (s : State) : (s.done r).cnt = s.cnt := rfl

@[simp] theorem State.done_pairValid (r : Response) (s : State) : (s.done r).pairValid = s.pairValid := rfl

@[simp] theorem State.done_pairBit (r : Response) (s : State) : (s.done r).pairBit = s.pairBit := rfl

@[simp] theorem State.done_status (r : Response) (s : State) : (s.done r).status = s.status := rfl

@[simp] theorem State.done_inited (r : Response) (s : State) : (s.done r).inited = s.inited := rfl

@[simp] theorem State.done_cfg (r : Response) (s : State) : (s.done r).cfg = s.cfg := rfl

@[simp] theorem State.done_input (r : Response) (s : State) : (s.done r).input = s.input := rfl

@[simp] theorem State.done_response (r : Response) (s : State) : (s.done r).response = r := rfl

@[simp] theorem State.done_violated (r : Response) (s : State) : (s.done r).violated = s.violated := rfl

@[simp] theorem State.done_fresh (r : Response) (s : State) : (s.done r).fresh = s.fresh := rfl

/-! ### State.cleared -/

@[simp] theorem State.cleared_buf (s : State) : (s.cleared).buf = [] := rfl

@[simp] theorem State.cleared_fillIndex (s : State) : (s.cleared).fillIndex = 0 := rfl

@[simp] theorem State.cleared_acc (s : State) : (s.cleared).acc = 0x00#8 := rfl

@[simp] theorem State.cleared_cnt (s : State) : (s.cleared).cnt = 0#3 := rfl

@[simp] theorem State.cleared_pairValid (s : State) : (s.cleared).pairValid = false := rfl

@[simp] theorem State.cleared_pairBit (s : State) : (s.cleared).pairBit = 0#1 := rfl

@[simp] theorem State.cleared_status (s : State) : (s.cleared).status = .empty := rfl

@[simp] theorem State.cleared_inited (s : State) : (s.cleared).inited = true := rfl

@[simp] theorem State.cleared_cfg (s : State) : (s.cleared).cfg = s.cfg := rfl

@[simp] theorem State.cleared_input (s : State) : (s.cleared).input = s.input := rfl

@[simp] theorem State.cleared_response (s : State) : (s.cleared).response = s.response := rfl

@[simp] theorem State.cleared_violated (s : State) : (s.cleared).violated = s.violated := rfl

@[simp] theorem State.cleared_fresh (s : State) : (s.cleared).fresh = s.fresh := rfl

/-! ### State.holdBit -/

@[simp] theorem State.holdBit_buf (b : Bit) (s : State) : (s.holdBit b).buf = s.buf := rfl

@[simp] theorem State.holdBit_fillIndex (b : Bit) (s : State) : (s.holdBit b).fillIndex = s.fillIndex := rfl

@[simp] theorem State.holdBit_acc (b : Bit) (s : State) : (s.holdBit b).acc = s.acc := rfl

@[simp] theorem State.holdBit_cnt (b : Bit) (s : State) : (s.holdBit b).cnt = s.cnt := rfl

@[simp] theorem State.holdBit_pairValid (b : Bit) (s : State) : (s.holdBit b).pairValid = true := rfl

@[simp] theorem State.holdBit_pairBit (b : Bit) (s : State) : (s.holdBit b).pairBit = b := rfl

@[simp] theorem State.holdBit_status (b : Bit) (s : State) : (s.holdBit b).status = s.status := rfl

@[simp] theorem State.holdBit_inited (b : Bit) (s : State) : (s.holdBit b).inited = s.inited := rfl

@[simp] theorem State.holdBit_cfg (b : Bit) (s : State) : (s.holdBit b).cfg = s.cfg := rfl

@[simp] theorem State.holdBit_input (b : Bit) (s : State) : (s.holdBit b).input = s.input := rfl

@[simp] theorem State.holdBit_response (b : Bit) (s : State) : (s.holdBit b).response = s.response := rfl

@[simp] theorem State.holdBit_violated (b : Bit) (s : State) : (s.holdBit b).violated = s.violated := rfl

@[simp] theorem State.holdBit_fresh (b : Bit) (s : State) : (s.holdBit b).fresh = s.fresh := rfl

/-! ### State.emptySlot -/

@[simp] theorem State.emptySlot_buf (s : State) : (s.emptySlot).buf = s.buf := rfl

@[simp] theorem State.emptySlot_fillIndex (s : State) : (s.emptySlot).fillIndex = s.fillIndex := rfl

@[simp] theorem State.emptySlot_acc (s : State) : (s.emptySlot).acc = s.acc := rfl

@[simp] theorem State.emptySlot_cnt (s : State) : (s.emptySlot).cnt = s.cnt := rfl

@[simp] theorem State.emptySlot_pairValid (s : State) : (s.emptySlot).pairValid = false := rfl

@[simp] theorem State.emptySlot_pairBit (s : State) : (s.emptySlot).pairBit = 0#1 := rfl

@[simp] theorem State.emptySlot_status (s : State) : (s.emptySlot).status = s.status := rfl

@[simp] theorem State.emptySlot_inited (s : State) : (s.emptySlot).inited = s.inited := rfl

@[simp] theorem State.emptySlot_cfg (s : State) : (s.emptySlot).cfg = s.cfg := rfl

@[simp] theorem State.emptySlot_input (s : State) : (s.emptySlot).input = s.input := rfl

@[simp] theorem State.emptySlot_response (s : State) : (s.emptySlot).response = s.response := rfl

@[simp] theorem State.emptySlot_violated (s : State) : (s.emptySlot).violated = s.violated := rfl

@[simp] theorem State.emptySlot_fresh (s : State) : (s.emptySlot).fresh = s.fresh := rfl

/-! ### State.take -/

@[simp] theorem State.take_buf (rest : List Stimulus) (s : State) : (s.take rest).buf = s.buf := rfl

@[simp] theorem State.take_fillIndex (rest : List Stimulus) (s : State) : (s.take rest).fillIndex = s.fillIndex := rfl

@[simp] theorem State.take_acc (rest : List Stimulus) (s : State) : (s.take rest).acc = s.acc := rfl

@[simp] theorem State.take_cnt (rest : List Stimulus) (s : State) : (s.take rest).cnt = s.cnt := rfl

@[simp] theorem State.take_pairValid (rest : List Stimulus) (s : State) : (s.take rest).pairValid = s.pairValid := rfl

@[simp] theorem State.take_pairBit (rest : List Stimulus) (s : State) : (s.take rest).pairBit = s.pairBit := rfl

@[simp] theorem State.take_status (rest : List Stimulus) (s : State) : (s.take rest).status = s.status := rfl

@[simp] theorem State.take_inited (rest : List Stimulus) (s : State) : (s.take rest).inited = s.inited := rfl

@[simp] theorem State.take_cfg (rest : List Stimulus) (s : State) : (s.take rest).cfg = s.cfg := rfl

@[simp] theorem State.take_input (rest : List Stimulus) (s : State) : (s.take rest).input = rest := rfl

@[simp] theorem State.take_response (rest : List Stimulus) (s : State) : (s.take rest).response = s.response := rfl

@[simp] theorem State.take_violated (rest : List Stimulus) (s : State) : (s.take rest).violated = s.violated := rfl

@[simp] theorem State.take_fresh (rest : List Stimulus) (s : State) : (s.take rest).fresh = s.fresh := rfl

/-! ### State.present -/

@[simp] theorem State.present_buf (x : Stimulus) (s : State) : (s.present x).buf = s.buf := rfl

@[simp] theorem State.present_fillIndex (x : Stimulus) (s : State) : (s.present x).fillIndex = s.fillIndex := rfl

@[simp] theorem State.present_acc (x : Stimulus) (s : State) : (s.present x).acc = s.acc := rfl

@[simp] theorem State.present_cnt (x : Stimulus) (s : State) : (s.present x).cnt = s.cnt := rfl

@[simp] theorem State.present_pairValid (x : Stimulus) (s : State) : (s.present x).pairValid = s.pairValid := rfl

@[simp] theorem State.present_pairBit (x : Stimulus) (s : State) : (s.present x).pairBit = s.pairBit := rfl

@[simp] theorem State.present_status (x : Stimulus) (s : State) : (s.present x).status = s.status := rfl

@[simp] theorem State.present_inited (x : Stimulus) (s : State) : (s.present x).inited = s.inited := rfl

@[simp] theorem State.present_cfg (x : Stimulus) (s : State) : (s.present x).cfg = s.cfg := rfl

@[simp] theorem State.present_input (x : Stimulus) (s : State) : (s.present x).input = x :: s.input := rfl

@[simp] theorem State.present_response (x : Stimulus) (s : State) : (s.present x).response = s.response := rfl

@[simp] theorem State.present_violated (x : Stimulus) (s : State) : (s.present x).violated = s.violated := rfl

@[simp] theorem State.present_fresh (x : Stimulus) (s : State) : (s.present x).fresh = s.fresh := rfl

/-! ### State.unspecified -/

@[simp] theorem State.unspecified_buf (s : State) : (s.unspecified).buf = Memory.ofFn (Config.freeByte s.fresh) s.cfg.capacity := rfl

@[simp] theorem State.unspecified_fillIndex (s : State) : (s.unspecified).fillIndex = Config.freeFillIndex s.fresh % 2 ^ s.cfg.indexWidth := rfl

@[simp] theorem State.unspecified_acc (s : State) : (s.unspecified).acc = Config.freeAcc s.fresh := rfl

@[simp] theorem State.unspecified_cnt (s : State) : (s.unspecified).cnt = Config.freeCnt s.fresh := rfl

@[simp] theorem State.unspecified_pairValid (s : State) : (s.unspecified).pairValid = Config.freePairValid s.fresh := rfl

@[simp] theorem State.unspecified_pairBit (s : State) : (s.unspecified).pairBit = Config.freePairBit s.fresh := rfl

@[simp] theorem State.unspecified_status (s : State) : (s.unspecified).status = Config.freeStatus s.fresh := rfl

@[simp] theorem State.unspecified_inited (s : State) : (s.unspecified).inited = s.inited := rfl

@[simp] theorem State.unspecified_cfg (s : State) : (s.unspecified).cfg = s.cfg := rfl

@[simp] theorem State.unspecified_input (s : State) : (s.unspecified).input = s.input := rfl

@[simp] theorem State.unspecified_response (s : State) : (s.unspecified).response = s.response := rfl

@[simp] theorem State.unspecified_violated (s : State) : (s.unspecified).violated = s.violated := rfl

@[simp] theorem State.unspecified_fresh (s : State) : (s.unspecified).fresh = s.fresh + 1 := rfl

/-! ### State.restart -/

@[simp] theorem State.restart_buf (s : State) : (s.restart).buf = Memory.ofFn (Config.freeByte s.fresh) s.cfg.capacity := rfl

@[simp] theorem State.restart_fillIndex (s : State) : (s.restart).fillIndex = Config.freeFillIndex s.fresh % 2 ^ s.cfg.indexWidth := rfl

@[simp] theorem State.restart_acc (s : State) : (s.restart).acc = Config.freeAcc s.fresh := rfl

@[simp] theorem State.restart_cnt (s : State) : (s.restart).cnt = Config.freeCnt s.fresh := rfl

@[simp] theorem State.restart_pairValid (s : State) : (s.restart).pairValid = Config.freePairValid s.fresh := rfl

@[simp] theorem State.restart_pairBit (s : State) : (s.restart).pairBit = Config.freePairBit s.fresh := rfl

@[simp] theorem State.restart_status (s : State) : (s.restart).status = Config.freeStatus s.fresh := rfl

@[simp] theorem State.restart_inited (s : State) : (s.restart).inited = false := rfl

@[simp] theorem State.restart_cfg (s : State) : (s.restart).cfg = s.cfg := rfl

@[simp] theorem State.restart_input (s : State) : (s.restart).input = s.input := rfl

@[simp] theorem State.restart_response (s : State) : (s.restart).response = .nothing := rfl

@[simp] theorem State.restart_violated (s : State) : (s.restart).violated = s.violated := rfl

@[simp] theorem State.restart_fresh (s : State) : (s.restart).fresh = s.fresh + 1 := rfl

/-! ### State.violateWith -/

@[simp] theorem State.violateWith_buf (r : Response) (s : State) : (s.violateWith r).buf = Memory.ofFn (Config.freeByte s.fresh) s.cfg.capacity := rfl

@[simp] theorem State.violateWith_fillIndex (r : Response) (s : State) : (s.violateWith r).fillIndex = Config.freeFillIndex s.fresh % 2 ^ s.cfg.indexWidth := rfl

@[simp] theorem State.violateWith_acc (r : Response) (s : State) : (s.violateWith r).acc = Config.freeAcc s.fresh := rfl

@[simp] theorem State.violateWith_cnt (r : Response) (s : State) : (s.violateWith r).cnt = Config.freeCnt s.fresh := rfl

@[simp] theorem State.violateWith_pairValid (r : Response) (s : State) : (s.violateWith r).pairValid = Config.freePairValid s.fresh := rfl

@[simp] theorem State.violateWith_pairBit (r : Response) (s : State) : (s.violateWith r).pairBit = Config.freePairBit s.fresh := rfl

@[simp] theorem State.violateWith_status (r : Response) (s : State) : (s.violateWith r).status = Config.freeStatus s.fresh := rfl

@[simp] theorem State.violateWith_inited (r : Response) (s : State) : (s.violateWith r).inited = s.inited := rfl

@[simp] theorem State.violateWith_cfg (r : Response) (s : State) : (s.violateWith r).cfg = s.cfg := rfl

@[simp] theorem State.violateWith_input (r : Response) (s : State) : (s.violateWith r).input = s.input := rfl

@[simp] theorem State.violateWith_response (r : Response) (s : State) : (s.violateWith r).response = r := rfl

@[simp] theorem State.violateWith_violated (r : Response) (s : State) : (s.violateWith r).violated = true := rfl

@[simp] theorem State.violateWith_fresh (r : Response) (s : State) : (s.violateWith r).fresh = s.fresh + 1 := rfl

/-! ### The state after reset -/

@[simp] theorem State.resetOf_buf (cfg : Config) : (State.resetOf cfg).buf = [] := rfl

@[simp] theorem State.resetOf_fillIndex (cfg : Config) : (State.resetOf cfg).fillIndex = 0 := rfl

@[simp] theorem State.resetOf_acc (cfg : Config) : (State.resetOf cfg).acc = 0x00#8 := rfl

@[simp] theorem State.resetOf_cnt (cfg : Config) : (State.resetOf cfg).cnt = 0#3 := rfl

@[simp] theorem State.resetOf_pairValid (cfg : Config) : (State.resetOf cfg).pairValid = false := rfl

@[simp] theorem State.resetOf_pairBit (cfg : Config) : (State.resetOf cfg).pairBit = 0#1 := rfl

@[simp] theorem State.resetOf_status (cfg : Config) : (State.resetOf cfg).status = .empty := rfl

@[simp] theorem State.resetOf_inited (cfg : Config) : (State.resetOf cfg).inited = true := rfl

@[simp] theorem State.resetOf_cfg (cfg : Config) : (State.resetOf cfg).cfg = cfg := rfl

@[simp] theorem State.resetOf_input (cfg : Config) : (State.resetOf cfg).input = [] := rfl

@[simp] theorem State.resetOf_response (cfg : Config) : (State.resetOf cfg).response = .nothing := rfl

@[simp] theorem State.resetOf_violated (cfg : Config) : (State.resetOf cfg).violated = false := rfl

@[simp] theorem State.resetOf_fresh (cfg : Config) : (State.resetOf cfg).fresh = 0 := rfl

end Sys2Proof.Machine
end

