-- ==== Sys2Proof/Laws/Ops.lean ====
section
/-! SUPPORT. For each shared operation, everything it can do; provers cite these and do not unfold the
operations. -/

namespace Sys2Proof.Machine

/-! ### Operands -/

theorem rawBit_eq_some {b : Nat} {bit : Bit} :
    rawBit b = some bit ↔ b < 2 ∧ bit = BitVec.ofNat 1 b := by
  match b with
  | 0 => exact ⟨fun h => ⟨by omega, (Option.some.inj h).symm⟩, fun h => congrArg some h.2.symm⟩
  | 1 => exact ⟨fun h => ⟨by omega, (Option.some.inj h).symm⟩, fun h => congrArg some h.2.symm⟩
  | b + 2 => simp [rawBit]

theorem rawBit_eq_none {b : Nat} : rawBit b = none ↔ 2 ≤ b := by
  match b with
  | 0 => simp [rawBit]
  | 1 => simp [rawBit]
  | b + 2 => simp [rawBit]

/-- A bit passed as a number is that bit. -/
@[simp] theorem rawBit_toNat (bit : Bit) : rawBit bit.toNat = some bit := by
  rw [rawBit_eq_some]
  exact ⟨bit.isLt, by simp⟩

theorem correctPair_eq_none {p b : Bit} : correctPair p b = none ↔ p = b := by
  unfold correctPair; split <;> simp_all

theorem correctPair_eq_some {p b e : Bit} : correctPair p b = some e ↔ p ≠ b ∧ e = p := by
  unfold correctPair; split <;> simp_all [eq_comm]

/-- The bits of a byte after an append: position `cnt` holds the old bit or the new one, every other
position is as before. -/
theorem getLsbD_appendTo (acc : Byte) (e : Bit) (cnt : BitVec 3) (j : Nat) :
    (appendTo acc e cnt).getLsbD j = (acc.getLsbD j || (decide (j = cnt.toNat) && e.getLsbD 0)) := by
  have hc := cnt.isLt
  unfold appendTo placeBit
  rw [BitVec.getLsbD_or, BitVec.getLsbD_shiftLeft, BitVec.getLsbD_setWidth]
  by_cases hj : j = cnt.toNat
  · subst hj
    have : cnt.toNat < 8 := by omega
    simp [this]
  · by_cases hlt : j < cnt.toNat
    · simp [hlt, hj]
    · have : e.getLsbD (j - cnt.toNat) = false := BitVec.getLsbD_of_ge _ _ (by omega)
      simp [this, hj]

/-- The partial byte stays below `2 ^ cnt` (R23(b)), and its value gains `e << cnt`. -/
theorem toNat_appendTo {acc : Byte} {e : Bit} {cnt : BitVec 3} (h : acc.toNat < 2 ^ cnt.toNat) :
    (appendTo acc e cnt).toNat = acc.toNat + e.toNat * 2 ^ cnt.toNat := by
  have hc := cnt.isLt
  have he := e.isLt
  have hp : e.toNat * 2 ^ cnt.toNat < 2 ^ 8 := by
    have : 2 ^ cnt.toNat ≤ 2 ^ 7 := Nat.pow_le_pow_right (by omega) (by omega)
    have : e.toNat ≤ 1 := by omega
    calc e.toNat * 2 ^ cnt.toNat ≤ 1 * 2 ^ 7 := Nat.mul_le_mul this ‹_›
      _ < 2 ^ 8 := by omega
  have hs : (e.setWidth 8).toNat = e.toNat := by
    rw [BitVec.toNat_setWidth, Nat.mod_eq_of_lt (by omega)]
  unfold appendTo placeBit
  rw [BitVec.toNat_or, BitVec.toNat_shiftLeft, hs, Nat.shiftLeft_eq, Nat.mod_eq_of_lt hp,
    Nat.or_comm, Nat.mul_comm, ← Nat.two_pow_add_eq_or_of_lt h, Nat.add_comm]

/-! ### Append and commit -/

/-- All a commit can do: store the byte at `fill_index`, when that is an index of the buffer. -/
theorem State.commit_eq_next {byte : Byte} {s t : State} :
    s.commit byte = .next t ↔ s.fillIndex < s.cfg.capacity ∧
      t = { s with
            buf := s.buf.write s.fillIndex byte, fillIndex := s.fillIndex + 1, acc := 0x00#8,
            cnt := 0#3, status := statusAfterCommit s.cfg (s.fillIndex + 1),
            response := .nothing } := by
  unfold State.commit
  split <;> simp_all [eq_comm]

/-- All an append can do: the accumulator takes the bit, or the byte it completes is committed. -/
theorem State.append_eq_next {e : Bit} {s t : State} :
    s.append e = .next t ↔
      (s.cnt.toNat < 7 ∧
        t = { s with
              acc := appendTo s.acc e s.cnt, cnt := BitVec.ofNat 3 (s.cnt.toNat + 1),
              status := .filling, response := .nothing }) ∨
      (s.cnt.toNat = 7 ∧ s.commit (appendTo s.acc e s.cnt) = .next t) := by
  have hc := s.cnt.isLt
  unfold State.append
  split
  · simp only [Host.Outcome.next.injEq, statusAfterAppend, eq_comm (b := t)]
    constructor
    · exact fun h => .inl ⟨by omega, h⟩
    · rintro (⟨-, h⟩ | ⟨h, -⟩)
      · exact h
      · omega
  · constructor
    · exact fun h => .inr ⟨by omega, h⟩
    · rintro (⟨h, -⟩ | ⟨-, h⟩)
      · omega
      · exact h

/-- All an ACCEPT can do when it answers a next state: one of the cases A to F of R69. -/
theorem execAccept_eq_next {b : Nat} {s t : State} (h : execAccept b s = .next t) :
    b < 2 ∧ s.inited = true ∧
      ((s.status = .full ∧ t = s.done .nothing) ∨
       (s.status ≠ .full ∧ s.pairValid = false ∧
          t = (s.holdBit (BitVec.ofNat 1 b)).done .nothing) ∨
       (s.status ≠ .full ∧ s.pairValid = true ∧ s.pairBit = BitVec.ofNat 1 b ∧
          t = s.emptySlot.done .nothing) ∨
       (s.status ≠ .full ∧ s.pairValid = true ∧ s.pairBit ≠ BitVec.ofNat 1 b ∧
          s.emptySlot.append s.pairBit = .next t)) := by
  unfold execAccept at h
  split at h
  · cases h
  · rename_i bit hb
    obtain ⟨hlt, rfl⟩ := rawBit_eq_some.mp hb
    refine ⟨hlt, ?_⟩
    split at h
    · cases h
    · refine ⟨by simpa using ‹¬s.inited = false›, ?_⟩
      split at h
      · cases h
        exact .inl ⟨‹_›, rfl⟩
      · split at h
        · cases h
          exact .inr (.inl ⟨‹_›, ‹_›, rfl⟩)
        · have hv : s.pairValid = true := by simpa using ‹¬s.pairValid = false›
          split at h
          · rename_i hp
            cases h
            exact .inr (.inr (.inl ⟨‹_›, hv, correctPair_eq_none.mp hp, rfl⟩))
          · rename_i e hp
            obtain ⟨hne, rfl⟩ := correctPair_eq_some.mp hp
            exact .inr (.inr (.inr ⟨‹_›, hv, hne, h⟩))

/-- All an exec can leave alone: the parameter of the block and the stimuli still waiting. -/
theorem exec_keeps_cfg_input {i : Instr} {s t : State} (h : exec i s = .next t) :
    t.cfg = s.cfg ∧ t.input = s.input := by
  cases i with
  | init => cases h; exact ⟨rfl, rfl⟩
  | reset => cases h; exact ⟨rfl, rfl⟩
  | status =>
    change execStatus s = .next t at h
    unfold execStatus at h
    split at h <;> cases h <;> exact ⟨rfl, rfl⟩
  | buffer =>
    change execBuffer s = .next t at h
    unfold execBuffer at h
    split at h <;> cases h <;> exact ⟨rfl, rfl⟩
  | accept b =>
    obtain ⟨-, -, ⟨-, rfl⟩ | ⟨-, -, rfl⟩ | ⟨-, -, -, rfl⟩ | ⟨-, -, -, h⟩⟩ := execAccept_eq_next h
    · exact ⟨rfl, rfl⟩
    · exact ⟨rfl, rfl⟩
    · exact ⟨rfl, rfl⟩
    · obtain ⟨-, rfl⟩ | ⟨-, h⟩ := State.append_eq_next.mp h
      · exact ⟨rfl, rfl⟩
      · obtain ⟨-, rfl⟩ := State.commit_eq_next.mp h
        exact ⟨rfl, rfl⟩

/-! ### Sequences of operations -/

/-- The first operation of a sequence, then the rest. -/
theorem runOps_cons_next {i : Instr} {ops : List Instr} {s u : State} {rs : List Response} :
    runOps (i :: ops) s = .next (u, rs) ↔
      ∃ t rs', exec i s = .next t ∧ runOps ops t = .next (u, rs') ∧ rs = t.response :: rs' := by
  rw [runOps]
  cases h : exec i s with
  | next t =>
    simp only [Host.Outcome.next.injEq]
    cases h' : runOps ops t with
    | next p =>
      obtain ⟨u', rs'⟩ := p
      simp only [Host.Outcome.next.injEq, Prod.mk.injEq]
      constructor
      · rintro ⟨rfl, rfl⟩
        exact ⟨t, rs', rfl, h', rfl⟩
      · rintro ⟨t', rs'', rfl, h1, rfl⟩
        rw [h'] at h1
        cases h1
        exact ⟨rfl, rfl⟩
    | fault f => simp [h']
    | refused r => simp [h']
  | fault f => simp
  | refused r => simp

/-- A sequence cut in two. -/
theorem runOps_append_next {a b : List Instr} {s u : State} {rs : List Response} :
    runOps (a ++ b) s = .next (u, rs) ↔
      ∃ t r1 r2, runOps a s = .next (t, r1) ∧ runOps b t = .next (u, r2) ∧ rs = r1 ++ r2 := by
  induction a generalizing s rs with
  | nil =>
    simp only [List.nil_append, runOps, Host.Outcome.next.injEq, Prod.mk.injEq]
    constructor
    · exact fun h => ⟨s, [], rs, ⟨rfl, rfl⟩, h, rfl⟩
    · rintro ⟨t, r1, r2, ⟨rfl, rfl⟩, h, rfl⟩
      exact h
  | cons i a ih =>
    rw [List.cons_append, runOps_cons_next]
    constructor
    · rintro ⟨t, rs', h1, h2, rfl⟩
      obtain ⟨v, r1, r2, h3, h4, rfl⟩ := ih.mp h2
      exact ⟨v, t.response :: r1, r2, runOps_cons_next.mpr ⟨t, r1, h1, h3, rfl⟩, h4, rfl⟩
    · rintro ⟨v, r1, r2, h3, h4, rfl⟩
      obtain ⟨t, r1', h1, h5, rfl⟩ := runOps_cons_next.mp h3
      exact ⟨t, r1' ++ r2, h1, ih.mpr ⟨v, r1', r2, h5, h4, rfl⟩, rfl⟩

/-- What the search for the end of a run does with one operation. -/
theorem runToEnd_cons_next {i : Instr} {ops : List Instr} {s : State} {e : Option (Nat × State)} :
    runToEnd (i :: ops) s = .next e ↔ ∃ t, exec i s = .next t ∧
      (t.status = .full ∧ e = some (1, t) ∨
        t.status ≠ .full ∧ ∃ e', runToEnd ops t = .next e' ∧
          e = e'.map fun p => (p.1 + 1, p.2)) := by
  rw [runToEnd]
  cases exec i s with
  | next t =>
    by_cases hf : t.status = .full
    · simp [hf, eq_comm]
    · cases h : runToEnd ops t with
      | next e' => simpa [hf, h] using eq_comm
      | fault f => simp [hf, h]
      | refused r => simp [hf, h]
  | fault f => simp
  | refused r => simp

/-- Whether a run has an end is decided wherever all of it completes. -/
theorem runToEnd_total {ops : List Instr} {s u : State} {rs : List Response}
    (h : runOps ops s = .next (u, rs)) : ∃ e, runToEnd ops s = .next e := by
  induction ops generalizing s rs with
  | nil => exact ⟨none, rfl⟩
  | cons i ops ih =>
    obtain ⟨t, rs', h1, h2, -⟩ := runOps_cons_next.mp h
    by_cases hf : t.status = .full
    · exact ⟨_, runToEnd_cons_next.mpr ⟨t, h1, .inl ⟨hf, rfl⟩⟩⟩
    · obtain ⟨e, he⟩ := ih h2
      exact ⟨_, runToEnd_cons_next.mpr ⟨t, h1, .inr ⟨hf, e, he, rfl⟩⟩⟩

/-- The end found is a step of the run, it is Full, and no step before it is. -/
theorem runToEnd_some {ops : List Instr} {s t : State} {n : Nat}
    (h : runToEnd ops s = .next (some (n, t))) :
    1 ≤ n ∧ n ≤ ops.length ∧ t.status = .full ∧
      (∃ rs, runOps (ops.take n) s = .next (t, rs)) ∧
      ∀ k u rs, 1 ≤ k → k < n → runOps (ops.take k) s = .next (u, rs) → u.status ≠ .full := by
  induction ops generalizing s n with
  | nil => cases h
  | cons i ops ih =>
    obtain ⟨v, h1, ⟨hf, h2⟩ | ⟨hf, e, h2, h3⟩⟩ := runToEnd_cons_next.mp h
    · cases h2
      exact ⟨le_rfl, by simp, hf, ⟨_, runOps_cons_next.mpr ⟨_, _, h1, rfl, rfl⟩⟩, by omega⟩
    · obtain _ | ⟨m, w⟩ := e
      · cases h3
      · cases h3
        obtain ⟨a1, a2, a3, ⟨rs, a4⟩, a5⟩ := ih h2
        refine ⟨by omega, by simp [a2], a3, ⟨_, runOps_cons_next.mpr ⟨_, _, h1, a4, rfl⟩⟩, ?_⟩
        intro k u rs hk hkn hu
        obtain ⟨k, rfl⟩ := Nat.exists_eq_add_of_le' hk
        obtain ⟨v', rs', g1, g2, -⟩ := runOps_cons_next.mp hu
        rw [h1] at g1
        cases g1
        obtain _ | k := k
        · cases g2
          exact hf
        · exact a5 (k + 1) u rs' (by omega) (by omega) g2

/-- Where no end is found, no step of the run is Full. -/
theorem runToEnd_none {ops : List Instr} {s u : State} {rs : List Response} {k : Nat}
    (h : runToEnd ops s = .next none) (hk : 1 ≤ k) (hk' : k ≤ ops.length)
    (hu : runOps (ops.take k) s = .next (u, rs)) : u.status ≠ .full := by
  induction ops generalizing s k rs with
  | nil => simp at hk'; omega
  | cons i ops ih =>
    obtain ⟨v, h1, ⟨-, h2⟩ | ⟨hf, e, h2, h3⟩⟩ := runToEnd_cons_next.mp h
    · cases h2
    · obtain _ | p := e
      · obtain ⟨k, rfl⟩ := Nat.exists_eq_add_of_le' hk
        obtain ⟨v', rs', g1, g2, -⟩ := runOps_cons_next.mp hu
        rw [h1] at g1
        cases g1
        obtain _ | k := k
        · cases g2
          exact hf
        · exact ih h2 (by omega) (by simpa using hk') g2
      · cases h3

end Sys2Proof.Machine
end

