-- ==== Sys2Proof/Laws/PerInstr.lean ====
section
/-! SUPPORT. One lemma per operation: its word is the one of its row of the opcode table (R48, R52). -/

namespace Sys2Proof.Laws.RowSelects

/-- The encoder's word for a well-formed operation selects the operation's own row of the table. -/
def Statement (i : Instr) : Prop :=
  i.WellFormed → ∃ r ∈ opcodeTable, r.mnemonic = i.mnemonic ∧ r.selects (encode i) = true

theorem init : Statement .init := fun _ => ⟨⟨"INIT", 0x0#4, 0xF#4⟩, by decide⟩

theorem accept (b : Nat) : Statement (.accept b) := fun h => by
  refine ⟨⟨"ACCEPT", 0x2#4, 0xE#4⟩, by simp [opcodeTable], rfl, ?_⟩
  match b, h with
  | 0, _ => decide
  | 1, _ => decide
  | b + 2, h => exact absurd h (by simp [Instr.WellFormed, Instr.wellFormed])

theorem status : Statement .status := fun _ => ⟨⟨"STATUS", 0x4#4, 0xF#4⟩, by decide⟩

theorem buffer : Statement .buffer := fun _ => ⟨⟨"BUFFER", 0x6#4, 0xF#4⟩, by decide⟩

theorem reset : Statement .reset := fun _ => ⟨⟨"RESET", 0x8#4, 0xF#4⟩, by decide⟩

end Sys2Proof.Laws.RowSelects
end

