-- ==== Sys2Proof/Tests/Slice0.lean ====
section
/-! SUPPORT. Small tests, their expected results taken from spec/95_test_vectors.md (the vector is
named), and a witness for the hypotheses of every statement of Certificates/Slice0/Obligations.lean. -/

namespace Sys2Proof.Tests

open Sys2Proof Sys2Proof.Machine

/-! ### Helpers -/

/-- A block of capacity `cap` with the given elements, initialised. -/
def block (cfg : Config) (buf : Memory) (fill : Nat) (acc : Byte) (cnt : BitVec 3)
    (slot : Bool × Bit) (st : Status) : State :=
  { State.resetOf cfg with
    buf := buf, fillIndex := fill, acc := acc, cnt := cnt, pairValid := slot.1, pairBit := slot.2
    status := st }

def cap1 : Config := ⟨1, by decide⟩
def cap2 : Config := ⟨2, by decide⟩

/-- V11's end state: Empty, a raw 1 waiting. -/
def held : State := block .standard [] 0 0x00 0 (true, 1) .empty
/-- V12's start state: three corrected bits, slot empty. -/
def three : State := block .standard [] 0 0x05 3 (false, 0) .filling
/-- V12's end state: a raw 0 waiting. -/
def threeHeld : State := block .standard [] 0 0x05 3 (true, 0) .filling
/-- Six corrected bits, a raw 0 waiting: the last place where an append does not commit. -/
def sixHeld : State := block .standard [] 0 0x3F 6 (true, 0) .filling
/-- V17's start state: the next differing pair commits byte 0 of 10. -/
def beforeByte : State := block .standard [] 0 0x16 7 (true, 1) .filling
/-- V17's end state. -/
def oneByte : State := block .standard [(0, 0x96)] 1 0x00 0 (false, 0) .filling
/-- V18's start state: the next differing pair commits byte 1 of 2. -/
def beforeFull : State := block cap2 [(0, 0xCD)] 1 0x0F 7 (true, 0) .filling
/-- V18's end state: Full. -/
def fullBlock : State := block cap2 [(0, 0xCD), (1, 0x0F)] 2 0x00 0 (false, 0) .full
/-- The power-on state of a block of capacity 2. -/
def off : State := State.powerOn cap2

/-- The next state, where there is one. -/
def nextOf : Host.Outcome State Fault Refusal → Option State
  | .next t => some t
  | .fault _ => none
  | .refused _ => none

/-! ### Decoding: words written out from R48 and R51 -/

theorem test_decode_words :
    decode 0b0000#4 = .instr .init ∧ decode 0b0010#4 = .instr (.accept 0) ∧
    decode 0b0011#4 = .instr (.accept 1) ∧ decode 0b0100#4 = .instr .status ∧
    decode 0b0110#4 = .instr .buffer ∧ decode 0b1000#4 = .instr .reset := by decide

/-- V37. -/
theorem test_decode_reserved :
    [0x1#4, 0x5#4, 0x7#4, 0x9#4].map decode = List.replicate 4 (.invalid .operandBitSet) ∧
    [0xA#4, 0xB#4, 0xC#4, 0xD#4, 0xE#4, 0xF#4].map decode =
      List.replicate 6 (.invalid .unassignedOp) := by decide

/-- V38. -/
theorem test_encode_words :
    [Instr.init, .accept 0, .accept 1, .status, .buffer, .reset].map encode =
      [0x0#4, 0x2#4, 0x3#4, 0x4#4, 0x6#4, 0x8#4] := by decide

/-- The table's numbering: bit 0 of the number is `b`; a number above 15 is no command word. -/
theorem test_table_words :
    decodeTableWord 8 0x3 = some (.accept 1) ∧ decodeTableWord 4 0x8 = some .reset ∧
    decodeTableWord 8 0x5 = none ∧ decodeTableWord 8 0x10 = none := by decide

/-- WellFormed's one check refuses an ACCEPT whose operand is no bit. -/
theorem test_illformed_accept : (Instr.accept 2).wellFormed = false := by decide

/-- The texts of R57. -/
theorem test_text :
    (Instr.accept 1).text = "ACCEPT 1" ∧ parseInstr "ACCEPT 0" = some (.accept 0) ∧
    parseInstr "ACCEPT 2" = none ∧
    resultText .buffer (.view [0xAA, 0x00]) = "BUFFER -> [0xAA, 0x00]" := by decide

/-! ### One step each -/

/-- V1: INIT from power-on. -/
theorem test_init_from_powerOn :
    (nextOf (exec .init off)).map (fun t => (t.buf, t.fillIndex, t.acc, t.cnt)) =
      some ([], 0, 0x00, 0) ∧
    (nextOf (exec .init off)).map (fun t => (t.pairValid, t.pairBit, t.status, t.inited)) =
      some (false, 0, .empty, true) := ⟨rfl, rfl⟩

/-- V7: RESET from Full. -/
theorem test_reset_from_full :
    (nextOf (exec .reset fullBlock)).map (fun t => (t.status, t.fillIndex, t.viewBytes)) =
      some (.empty, 0, [0x00, 0x00]) := by decide

/-- V17: case E. -/
theorem test_accept_commits_byte :
    (nextOf (exec (.accept 0) beforeByte)).map (fun t => (t.buf, t.fillIndex, t.cnt, t.status)) =
      some ([(0, 0x96)], 1, 0, .filling) := by decide

/-- V18: case F. -/
theorem test_accept_fills_buffer :
    (nextOf (exec (.accept 1) beforeFull)).map (fun t => (t.viewBytes, t.fillIndex, t.status)) =
      some ([0xCD, 0x0F], 2, .full) := by decide

/-- V30: Empty with a raw bit waiting. -/
theorem test_status_empty_with_bit_waiting :
    (nextOf (exec .status held)).map State.response = some (.status .empty) := by decide

/-- V31: STATUS after one byte. -/
theorem test_status_filling :
    (nextOf (exec .status oneByte)).map State.response = some (.status .filling) := by decide

/-- V31: a premature read. -/
theorem test_buffer_premature :
    (nextOf (exec .buffer oneByte)).map State.response =
      some (.view [0x96, 0, 0, 0, 0, 0, 0, 0, 0, 0]) := by decide

/-- V33: the bytes of a Full block, and the same on a wide bus. -/
theorem test_buffer_full :
    (nextOf (exec .buffer fullBlock)).map State.response = some (.view [0xCD, 0x0F]) ∧
    viewBus [0xCD, 0x0F] = 0x0FCD#16 := by decide

/-- V40a: ACCEPT at power-on is CV2. -/
theorem test_accept_at_powerOn : exec (.accept 0) off = .fault .acceptBeforeInit := rfl

/-- V40b: STATUS at power-on has some result and marks the run. -/
theorem test_status_at_powerOn :
    (nextOf (exec .status off)).map State.violated = some true := rfl

/-- The first instruction after reset, as the host presents it. -/
theorem test_first_word_after_reset :
    (nextOf (step (State.reset.withFetchWord 8 0x3))).map (fun t => (t.pairValid, t.pairBit)) =
      some (true, 1) := by decide

/-- V34: BUFRD, and its refusal outside the buffer. -/
theorem test_bufrd :
    bufrd 1 fullBlock = .next (fullBlock.done (.view [0xCD, 0x0F]), 0x0F) ∧
    bufrd 2 fullBlock = .refused (.viewIndexOutsideBuffer 2) := ⟨rfl, rfl⟩

/-- R41: the byte first, `status` last. -/
theorem test_subSteps_order :
    acceptSubSteps 1 beforeFull =
      [.setSlot false 0, .storeByte 1 0x0F, .setFillIndex 2, .setAccumulator 0 0,
        .setStatus .full] := by decide

/-! ### The invariants of the states above -/

/-- The invariants as a check that can be computed. -/
def readyCheck (s : State) : Bool :=
  decide (s.inited = true ∧ s.buf.wf ∧ s.buf.inRange s.cfg.capacity ∧
    s.fillIndex ≤ s.cfg.capacity ∧ s.status = statusFor s.cfg s.fillIndex s.cnt ∧
    s.acc.toNat < 2 ^ s.cnt.toNat ∧ (s.pairValid = false → s.pairBit = 0#1) ∧
    (s.status = .full → s.cnt = 0#3 ∧ s.acc = 0x00#8 ∧ s.pairValid = false ∧ s.pairBit = 0#1) ∧
    ∀ i, i < s.cfg.capacity → s.fillIndex ≤ i → s.buf.read i = 0x00#8)

theorem ready_of_check {s : State} (h : readyCheck s = true) : s.Ready := by
  simp only [readyCheck, decide_eq_true_eq] at h
  obtain ⟨hi, hw, hr, hf, hst, ha, hp, hfull, hz⟩ := h
  have hpos := s.cfg.capacity_pos
  refine ⟨hi, hw, hr, Nat.lt_of_le_of_lt hf Nat.lt_log2_self, fun _ => ?_⟩
  have hcases : s.status = .full ∧ s.fillIndex = s.cfg.capacity ∨
      s.status = .empty ∧ s.fillIndex = 0 ∧ s.cnt = 0#3 ∨
      s.status = .filling ∧ s.fillIndex < s.cfg.capacity ∧ ¬(s.fillIndex = 0 ∧ s.cnt = 0#3) := by
    unfold statusFor at hst
    split at hst
    · exact .inl ⟨hst, ‹_›⟩
    · split at hst
      · exact .inr (.inl ⟨hst, ‹_›⟩)
      · exact .inr (.inr ⟨hst, by omega, ‹_›⟩)
  refine ⟨?_, ?_, ?_, hf, ha, hp, hfull, fun i h1 h2 => hz i h2 h1⟩
  · rcases hcases with ⟨h, h1⟩ | ⟨h, h1, -⟩ | ⟨h, h1, -⟩ <;> simp [h] <;> omega
  · rcases hcases with ⟨h, h1⟩ | ⟨h, h1, h2⟩ | ⟨h, h1, h2⟩
    · simp [h]; omega
    · simp [h, h1, h2]
    · simpa [h] using h2
  · rcases hcases with ⟨h, h1⟩ | ⟨h, h1, h2⟩ | ⟨h, h1, h2⟩
    · simp [h, h1]
    · simp [h, h1, h2]
    · simp only [h, true_iff]
      exact ⟨h1, by by_cases h0 : s.fillIndex = 0 <;> [exact .inr fun hc => h2 ⟨h0, hc⟩; exact .inl (by omega)]⟩

theorem held_ready : held.Ready := ready_of_check (by decide)
theorem three_ready : three.Ready := ready_of_check (by decide)
theorem threeHeld_ready : threeHeld.Ready := ready_of_check (by decide)
theorem sixHeld_ready : sixHeld.Ready := ready_of_check (by decide)
theorem beforeByte_ready : beforeByte.Ready := ready_of_check (by decide)
theorem oneByte_ready : oneByte.Ready := ready_of_check (by decide)
theorem beforeFull_ready : beforeFull.Ready := ready_of_check (by decide)
theorem fullBlock_ready : fullBlock.Ready := ready_of_check (by decide)
theorem reset_ready : State.reset.Ready := ready_of_check (by decide)

/-! ### Witnesses: states and operands that meet the hypotheses of each statement

Each theorem is named after its statement. A statement with no hypothesis has none. -/

theorem witness_DecodeEncodeAgree :
    (Instr.accept 1).WellFormed ∧ decode 0x3#4 = .instr (.accept 1) ∧
    (∃ r ∈ opcodeTable, r.selects 0x3#4 = true) := by decide

theorem witness_ReservedWordsAreRefused :
    0x9#4 ∈ [0x1#4, 0x5#4, 0x7#4, 0x9#4] ∧ 0xA#4 ∈ [0xA#4, 0xB#4, 0xC#4, 0xD#4, 0xE#4, 0xF#4] ∧
    0x8#4 ∈ [0x0#4, 0x2#4, 0x3#4, 0x4#4, 0x6#4, 0x8#4] := by decide

theorem witness_StepRunsTheDecodedOperation :
    (three.present (.word .producer 0x3)).input = .word .producer 0x3 :: [] ∧
    decode 0x3#4 = .instr (.accept 1) ∧
    (three.present (.call .consumer .status)).input = .call .consumer .status :: [] ∧
    three.input = [] := by decide

theorem witness_PresentedWordRunsNext : decodeTableWord 8 0x3 = some (.accept 1) := by decide

theorem witness_NoStateSurvivesPowerLoss :
    beforeByte.cfg = three.cfg ∧ beforeByte.fresh = three.fresh ∧ beforeByte.acc ≠ three.acc := by
  decide

theorem witness_StepKeepsInv :
    three.Inv ∧ (three.present (.word .producer 0x3)).Inv ∧
    ∃ t, step (three.present (.word .producer 0x3)) = .next t :=
  ⟨three_ready.inv, (ready_of_check (by decide)).inv, _, rfl⟩

theorem witness_StatusIsFunctionOfFill :
    beginsCycle .reset = true ∧ ∃ t rs, runOps [.reset, .accept 1, .accept 0] three = .next (t, rs) :=
  ⟨rfl, _, _, rfl⟩

theorem witness_CapacityNeverChanges :
    (∃ t, step (three.present (.word .producer 0x3)) = .next t) ∧
    ∃ t rs, runOps [.accept 1, .status] three = .next (t, rs) := ⟨⟨_, rfl⟩, _, _, rfl⟩

theorem witness_InitIsIdempotent : off.inited = false := rfl

/-- An ACCEPT of `beforeByte` in flight in the sub-step machine. -/
def inFlight : Refined := { base := beforeByte, inFlight := acceptSubSteps 0 beforeByte }

theorem witness_InitZeroesEverything : inFlight.inFlight ≠ [] := by decide

theorem witness_ResetIsIdenticalToInit :
    fullBlock.inited = true ∧ fullBlock.status = .full ∧
    (∃ t, exec .reset fullBlock = .next t ∧ t.status ≠ .full) ∧ inFlight.inFlight ≠ [] :=
  ⟨rfl, rfl, ⟨_, rfl, by decide⟩, by decide⟩

theorem witness_RestartDiscardsEverything : beginsCycle .init = true ∧ beginsCycle .reset = true :=
  ⟨rfl, rfl⟩

theorem witness_SameBitsGiveSameResults :
    beforeByte.cfg = three.cfg ∧ beginsCycle .init = true ∧ beginsCycle .reset = true ∧
    withinCycle [.accept 1, .status, .accept 0, .buffer] = true := by decide

/-- One state for each of the six cases. -/
theorem witness_AcceptSixCases :
    (fullBlock.Ready ∧ fullBlock.status = .full) ∧
    (three.Ready ∧ three.status ≠ .full ∧ three.pairValid = false) ∧
    (threeHeld.Ready ∧ threeHeld.status ≠ .full ∧ threeHeld.pairValid = true ∧
      threeHeld.pairBit = 0) ∧
    (sixHeld.Ready ∧ sixHeld.status ≠ .full ∧ sixHeld.pairValid = true ∧ sixHeld.pairBit ≠ 1 ∧
      sixHeld.cnt.toNat < 7) ∧
    (beforeByte.Ready ∧ beforeByte.status ≠ .full ∧ beforeByte.pairValid = true ∧
      beforeByte.pairBit ≠ 0 ∧ beforeByte.cnt.toNat = 7 ∧
      beforeByte.fillIndex + 1 < beforeByte.cfg.capacity) ∧
    (beforeFull.Ready ∧ beforeFull.status ≠ .full ∧ beforeFull.pairValid = true ∧
      beforeFull.pairBit ≠ 1 ∧ beforeFull.cnt.toNat = 7 ∧
      beforeFull.fillIndex + 1 = beforeFull.cfg.capacity) :=
  ⟨⟨fullBlock_ready, by decide⟩, ⟨three_ready, by decide⟩, ⟨threeHeld_ready, by decide⟩,
    ⟨sixHeld_ready, by decide⟩, ⟨beforeByte_ready, by decide⟩, ⟨beforeFull_ready, by decide⟩⟩

theorem witness_AcceptNeedsInit : off.inited = false ∧ three.Ready := ⟨rfl, three_ready⟩

theorem witness_FullDropsRawBit :
    fullBlock.inited = true ∧ fullBlock.status = .full ∧ fullBlock.Ready :=
  ⟨rfl, rfl, fullBlock_ready⟩

theorem witness_FirstBitOfPairWaits :
    three.inited = true ∧ three.status ≠ .full ∧ three.pairValid = false := by decide

theorem witness_PairsDoNotOverlap :
    (sixHeld.Ready ∧ sixHeld.status ≠ .full ∧ sixHeld.pairValid = true) ∧
    (∃ t, exec (.accept 1) sixHeld = .next t ∧ t.status ≠ .full) ∧ beginsCycle .init = true ∧
    (∃ t rs, runOps (.init :: feed [0, 1]) three = .next (t, rs) ∧ t.status ≠ .full ∧
      [0#1, 1#1].length % 2 = 0) ∧
    ∃ t rs, runOps (.init :: feed [0, 1, 1]) three = .next (t, rs) ∧ t.status ≠ .full ∧
      [0#1, 1#1, 1#1].length % 2 = 1 :=
  ⟨⟨sixHeld_ready, by decide⟩, ⟨_, rfl, by decide⟩, rfl, ⟨_, _, rfl, by decide⟩, _, _, rfl,
    by decide⟩

theorem witness_EqualPairIsDiscarded :
    (threeHeld.inited = true ∧ threeHeld.status ≠ .full ∧ threeHeld.pairValid = true ∧
      threeHeld.pairBit = 0) ∧
    three.Ready ∧ three.status ≠ .full ∧ three.pairValid = false :=
  ⟨by decide, three_ready, by decide⟩

/-- A differing pair that appends and one that commits; a waiting bit and an equal pair. -/
theorem witness_DifferingPairEmitsFirstBit :
    (sixHeld.Ready ∧ sixHeld.status ≠ .full ∧ sixHeld.pairValid = true ∧ sixHeld.pairBit ≠ 1) ∧
    (beforeFull.Ready ∧ beforeFull.status ≠ .full ∧ beforeFull.pairValid = true ∧
      beforeFull.pairBit ≠ 1) ∧
    (three.Ready ∧ three.status ≠ .full ∧ (three.pairValid = true → three.pairBit = 1)) ∧
    (held.Ready ∧ held.status ≠ .full ∧ (held.pairValid = true → held.pairBit = 1)) :=
  ⟨⟨sixHeld_ready, by decide⟩, ⟨beforeFull_ready, by decide⟩, ⟨three_ready, by decide⟩,
    ⟨held_ready, by decide⟩⟩

/-- Both clauses, at `cnt` 6 and at `cnt` 7. -/
theorem witness_CorrectedBitGoesToPositionCnt :
    (sixHeld.Ready ∧ sixHeld.status ≠ .full ∧ sixHeld.pairValid = true ∧ sixHeld.pairBit ≠ 1 ∧
      sixHeld.cnt.toNat < 7) ∧
    (beforeByte.Ready ∧ beforeByte.status ≠ .full ∧ beforeByte.pairValid = true ∧
      beforeByte.pairBit ≠ 0 ∧ beforeByte.cnt.toNat = 7) :=
  ⟨⟨sixHeld_ready, by decide⟩, ⟨beforeByte_ready, by decide⟩⟩

theorem witness_EighthBitCommitsByte :
    beforeFull.Ready ∧ beforeFull.status ≠ .full ∧ beforeFull.pairValid = true ∧
    beforeFull.pairBit ≠ 1 ∧ beforeFull.cnt = 7#3 := ⟨beforeFull_ready, by decide⟩

theorem witness_AcceptWritesStatusTwoWays :
    (beforeFull.Ready ∧ beforeFull.status ≠ .full ∧ beforeFull.pairValid = true ∧
      beforeFull.pairBit ≠ 1) ∧
    (fullBlock.Ready ∧ fullBlock.status = .full) ∧ (three.Ready ∧ three.pairValid = false) ∧
    (held.Ready ∧ held.pairBit = 1) ∧
    ∃ t, exec (.accept 1) held = .next t ∧ t.status = .empty :=
  ⟨⟨beforeFull_ready, by decide⟩, ⟨fullBlock_ready, rfl⟩, ⟨three_ready, rfl⟩, ⟨held_ready, rfl⟩,
    _, rfl, rfl⟩

theorem witness_AcceptFrame :
    (beforeFull.Ready ∧ beforeFull.status ≠ .full ∧ beforeFull.pairValid = true ∧
      beforeFull.pairBit ≠ 1 ∧ beforeFull.cnt = 7#3) ∧
    (sixHeld.Ready ∧ ¬(sixHeld.status ≠ .full ∧ sixHeld.pairValid = true ∧
      sixHeld.pairBit ≠ 1 ∧ sixHeld.cnt = 7#3)) ∧
    (three.Ready ∧ ¬(three.status ≠ .full ∧ three.pairValid = true ∧ three.pairBit ≠ 1)) :=
  ⟨⟨beforeFull_ready, by decide⟩, ⟨sixHeld_ready, by decide⟩, ⟨three_ready, by decide⟩⟩

theorem witness_RawBitOutsideRangeIsRefused : 2 ≤ 2 ∧ off.inited = false := ⟨le_rfl, rfl⟩

theorem witness_StatusReturnsStoredValue :
    (held.inited = true) ∧
    (held.Ready ∧ held.fillIndex = 0 ∧ held.cnt = 0#3 ∧ held.pairValid = true) ∧
    (three.Ready ∧ three.status = .filling) ∧ (fullBlock.Ready ∧ fullBlock.status = .full) ∧
    off.inited = false :=
  ⟨rfl, ⟨held_ready, by decide⟩, ⟨three_ready, rfl⟩, ⟨fullBlock_ready, rfl⟩, rfl⟩

theorem witness_StatusIsSnapshotAndFullPersists :
    (three.inited = true ∧ ∃ t, exec .status three = .next t) ∧ fullBlock.Ready ∧
    fullBlock.status = .full ∧ withinCycle [.accept 1, .status, .accept 0] = true :=
  ⟨⟨rfl, _, rfl⟩, fullBlock_ready, rfl, rfl⟩

theorem witness_BufferReturnsBytes :
    oneByte.inited = true ∧ 9 < oneByte.cfg.capacity ∧ off.inited = false :=
  ⟨rfl, by decide, rfl⟩

theorem witness_BufferChangesNoState :
    fullBlock.inited = true ∧ fullBlock.status ≠ .empty ∧
    ∃ t, exec .reset fullBlock = .next t ∧ t.status = .empty := ⟨rfl, by decide, _, rfl, rfl⟩

/-- Indices on both sides of `fill_index`, at the ends of their ranges. -/
theorem witness_PrematureReadIsDefined :
    oneByte.Ready ∧ oneByte.status ≠ .full ∧ 0 < oneByte.fillIndex ∧ ¬(1 < oneByte.fillIndex) ∧
    9 < oneByte.cfg.capacity := ⟨oneByte_ready, by decide⟩

theorem witness_ReadsHaveNoSideEffects :
    three.inited = true ∧ (Instr.buffer = .status ∨ Instr.buffer = .buffer) := by decide

theorem witness_WritersReturnNothing :
    Instr.accept 1 ≠ .status ∧ Instr.accept 1 ≠ .buffer ∧ ∃ t, exec (.accept 1) three = .next t :=
  ⟨by decide, by decide, _, rfl⟩

theorem witness_HiddenStateIsNotVisible :
    three.inited = true ∧ beforeByte.inited = true ∧ beforeByte.cfg = three.cfg ∧
    beforeByte.status = three.status ∧ beforeByte.acc ≠ three.acc ∧
    ∀ k, k < three.cfg.capacity → beforeByte.buf.read k = three.buf.read k := by decide

theorem witness_ContractedOperationsSucceed :
    off.Inv ∧ contractKept off.inited [.init, .accept 1, .buffer] = true ∧ off.violated = false := by
  refine ⟨⟨Memory.ofFn_wf _ _, Memory.ofFn_inRange _ _, Nat.mod_lt _ (by decide), ?_⟩, rfl, rfl⟩
  exact fun h => nomatch h

theorem witness_ViolationMarkStays :
    (∃ t, step ({ three with violated := true } : State) = .next t) ∧ off.inited = false :=
  ⟨⟨_, rfl⟩, rfl⟩

theorem witness_BitCursorMoves :
    (beforeFull.Ready ∧ (∃ t, exec (.accept 1) beforeFull = .next t) ∧
      Instr.accept 1 = .accept (1#1).toNat) ∧
    (fullBlock.Ready ∧ (∃ t, exec .reset fullBlock = .next t) ∧ beginsCycle .reset = true) ∧
    (three.Ready ∧ ∃ t, exec .status three = .next t) :=
  ⟨⟨beforeFull_ready, ⟨_, rfl⟩, rfl⟩, ⟨fullBlock_ready, ⟨_, rfl⟩, rfl⟩, three_ready, _, rfl⟩

theorem witness_StatusStateMachine :
    (held.Ready ∧ held.status = .empty ∧ ∃ t, exec (.accept 0) held = .next t) ∧
    (beforeFull.Ready ∧ beforeFull.status = .filling ∧ ∃ t, exec (.accept 1) beforeFull = .next t) ∧
    (fullBlock.Ready ∧ fullBlock.status = .full ∧ (∃ t, exec (.accept 1) fullBlock = .next t) ∧
      (∃ t, exec .buffer fullBlock = .next t) ∧ ∃ t, exec .init fullBlock = .next t) :=
  ⟨⟨held_ready, rfl, _, rfl⟩, ⟨beforeFull_ready, rfl, _, rfl⟩, fullBlock_ready, rfl, ⟨_, rfl⟩,
    ⟨_, rfl⟩, _, rfl⟩

theorem witness_FullIsIdempotent : fullBlock.inited = true ∧ fullBlock.status = .full := ⟨rfl, rfl⟩

theorem witness_CommittedBytesAreStable :
    (oneByte.Ready ∧ 0 < oneByte.fillIndex) ∧ (fullBlock.Ready ∧ fullBlock.status = .full) ∧
    withinCycle [.accept 1, .accept 0, .buffer] = true :=
  ⟨⟨oneByte_ready, by decide⟩, ⟨fullBlock_ready, rfl⟩, rfl⟩

theorem witness_EqualPairsMakeNoProgress :
    three.Ready ∧ three.pairValid = false ∧ differing [0, 0, 1, 1, 0] = [] :=
  ⟨three_ready, rfl, by decide⟩

theorem witness_CorrectedBitsCountDifferingPairs :
    beginsCycle .init = true ∧ ∀ k u rs, k < [1#1, 0#1].length →
      runOps (.init :: feed ([1#1, 0#1].take k)) three = .next (u, rs) → u.status ≠ .full := by
  refine ⟨rfl, fun k u rs hk h => ?_⟩
  match k, hk with
  | 0, _ => cases h; decide
  | 1, _ => cases h; decide

theorem witness_EmptyUntilFirstCorrectedBit :
    beginsCycle .reset = true ∧ differing [1, 1, 0] = [] ∧ differing ([1, 1, 0] ++ [1]) ≠ [] := by
  decide

/-- V22's raw bits, capacity 1, and R84's status at each end of its ranges of ACCEPTs. -/
theorem witness_FillingTheWholeBuffer :
    beginsCycle .init = true ∧
    [0#1, 1, 0, 1, 0, 1, 0, 1, 0, 1, 0, 1, 0, 1, 0, 1].length =
      16 * (State.powerOn cap1).cfg.capacity ∧
    (differing [0#1, 1, 0, 1, 0, 1, 0, 1, 0, 1, 0, 1, 0, 1, 0, 1]).length =
      8 * (State.powerOn cap1).cfg.capacity ∧
    ∀ p ∈ [(1, Status.empty), (2, .filling), (15, .filling), (16, .full)],
      ∃ t rs, runOps
        (.init :: feed ([0#1, 1, 0, 1, 0, 1, 0, 1, 0, 1, 0, 1, 0, 1, 0, 1].take p.1))
        (State.resetOf cap1) = .next (t, rs) ∧ t.status = p.2 := by
  refine ⟨rfl, rfl, rfl, fun p hp => ?_⟩
  simp only [List.mem_cons, List.not_mem_nil, or_false] at hp
  rcases hp with rfl | rfl | rfl | rfl <;> exact ⟨_, _, rfl, by decide⟩

/-- The cap of R86 at both ends, capacity 1: no corrected bit, and eight, with an equal
pair and a ninth differing pair dropped after them. -/
theorem witness_ClosedFormOfState :
    beginsCycle .init = true ∧ beginsCycle .reset = true ∧
    min (correctedBits [1#1, 1#1]).length (8 * cap1.capacity) = 0 ∧
    min (correctedBits [0#1, 1, 1, 0, 0, 1, 1, 0, 0, 1, 1, 0, 0, 1, 1, 0, 1, 1, 0, 1]).length
      (8 * cap1.capacity) = 8 * cap1.capacity := ⟨rfl, rfl, rfl, rfl⟩

/-- S7's raw bits, capacity 1, as a sequence of operations. -/
def s7 : List Instr := feed [0, 1, 1, 0, 0, 1, 1, 0, 0, 1, 1, 0, 0, 1, 1, 0]

theorem witness_CorrectedBitPosition :
    beginsCycle .init = true ∧ withinCycle s7 = true ∧
    ∃ t rs, runOps (.init :: s7) (State.resetOf cap1) = .next (t, rs) ∧ 7 < 8 * t.fillIndex :=
  ⟨rfl, by decide, _, _, rfl, by decide⟩

/-- S7: the run ends at its sixteenth raw bit, the seventeenth operation, with 0xAA in the buffer; what
comes after does not move the end (R119). -/
theorem test_run_ends_at_first_full :
    ∃ t, runToEnd (.init :: s7 ++ [.status, .accept 1]) (State.resetOf cap1) = .next (some (17, t)) ∧
      t.observation = (.full, [0xAA#8]) := ⟨_, rfl, by decide⟩

/-- A run that ends (S7), one that ends at its last operation, and one that does not. -/
theorem witness_EndOfRunIsFirstFull :
    beginsCycle .init = true ∧ withinCycle (s7 ++ [.status]) = true ∧
    withinCycle (s7.take 15) = true ∧
    (∃ t, runToEnd (.init :: s7 ++ [.status]) (State.resetOf cap1) = .next (some (17, t))) ∧
    (∃ t, runToEnd (.init :: s7) (State.resetOf cap1) = .next (some (17, t))) ∧
    runToEnd (.init :: s7.take 15) (State.resetOf cap1) = .next none :=
  ⟨rfl, by decide, by decide, ⟨_, rfl⟩, ⟨_, rfl⟩, rfl⟩

theorem witness_FullPublishesAllBytes :
    beginsCycle .init = true ∧ withinCycle s7 = true ∧ withinCycle [.accept 1, .status] = true ∧
    ∃ t rs, runOps (.init :: s7 ++ [.status]) (State.resetOf cap1) = .next (t, rs) ∧
      t.response = .status .full := ⟨rfl, by decide, rfl, _, _, rfl, by decide⟩

theorem witness_CycleDeliversFunctionOfRawBits :
    (State.powerOn cap1).cfg = (State.resetOf cap1).cfg ∧ beginsCycle .init = true ∧
    beginsCycle .reset = true ∧ withinCycle s7 = true ∧
    withinCycle (s7 ++ [.buffer, .accept 1]) = true ∧
    (∃ t rs, runOps (.init :: s7) (State.resetOf cap1) = .next (t, rs) ∧ t.isFull = true) ∧
    rawBits s7 <+: rawBits (s7 ++ [.buffer, .accept 1]) :=
  ⟨rfl, rfl, rfl, by decide, by decide, ⟨_, _, rfl, by decide⟩, [1#1], by decide⟩

theorem witness_ResultsOnWires : [0xCD#8, 0x0F#8][1]? = some 0x0F#8 ∧ 7 < 8 := by decide

theorem witness_ByteReadsThroughTheView :
    (fullBlock.inited = true ∧ 1 < fullBlock.cfg.capacity) ∧ fullBlock.cfg.capacity ≤ 2 ∧
    fullBlock.Ready ∧ fullBlock.status = .full ∧ withinCycle [.accept 1, .accept 0] = true :=
  ⟨by decide, by decide, fullBlock_ready, rfl, rfl⟩

theorem witness_PollAnswersWhetherFull :
    beforeFull.Ready ∧ ∀ ops ∈ [[Instr.accept 1], [.accept 0]], withinCycle ops = true :=
  ⟨beforeFull_ready, by decide⟩

/-- A commit that makes the block Full: five writes, looked at after the fourth and after the fifth. -/
theorem witness_SubStepsKeepCommitOrder :
    beforeFull.Ready ∧ (acceptSubSteps 1 beforeFull).length = 5 ∧
    (Refined.advance^[4] ⟨beforeFull, acceptSubSteps 1 beforeFull⟩).base.fillIndex ≠
      beforeFull.fillIndex ∧
    (Refined.advance^[5] ⟨beforeFull, acceptSubSteps 1 beforeFull⟩).base.status = .full :=
  ⟨beforeFull_ready, by decide, by decide, by decide⟩

theorem witness_ResetAgainstAcceptInFlight : three.Ready ∧ inFlight.inFlight ≠ [] :=
  ⟨three_ready, by decide⟩

end Sys2Proof.Tests
end

section
/-! The shared rules the proofs of this family rest on, and the proof of R21 and R22 along a run. -/

namespace Sys2Proof.Machine

/-! ### What an operation and a sequence of operations can do -/

/-- INIT and RESET clear every element, from every state (R60, R63). -/
theorem exec_of_beginsCycle {i : Instr} (hi : beginsCycle i = true) (s : State) :
    exec i s = .next (s.cleared.done .nothing) := by
  cases i with
  | init => rfl
  | reset => rfl
  | accept b => cases hi
  | status => cases hi
  | buffer => cases hi

/-- STATUS on an initialised block (R87). -/
theorem exec_status_of_inited {s : State} (h : s.inited = true) :
    exec .status s = .next (s.done (.status s.status)) := if_pos h

/-- BUFFER on an initialised block (R89). -/
theorem exec_buffer_of_inited {s : State} (h : s.inited = true) :
    exec .buffer s = .next (s.done (.view s.viewBytes)) := if_pos h

/-- What every operation keeps, a sequence of operations keeps. -/
theorem runOps_keeps {P : State → Prop}
    (hP : ∀ {i : Instr} {s t : State}, exec i s = .next t → P s → P t)
    {ops : List Instr} {s t : State} {rs : List Response}
    (h : runOps ops s = .next (t, rs)) (hs : P s) : P t := by
  induction ops generalizing s rs with
  | nil => cases h; exact hs
  | cons i ops ih =>
    obtain ⟨u, rs', hu, hrest, -⟩ := runOps_cons_next.mp h
    exact ih hrest (hP hu hs)

/-! ### `status` as a function of the cursor -/

theorem statusFor_eq_full_iff {cfg : Config} {n : Nat} {c : BitVec 3} :
    statusFor cfg n c = .full ↔ n = cfg.capacity := by
  unfold statusFor
  by_cases hn : n = cfg.capacity
  · simp [hn]
  · rw [if_neg hn]
    split <;> simp [hn]

/-- Empty is never claimed of a full buffer, since `CAPACITY` is at least 1. -/
theorem statusFor_eq_empty_iff {cfg : Config} {n : Nat} {c : BitVec 3} :
    statusFor cfg n c = .empty ↔ n = 0 ∧ c = 0#3 := by
  have hpos := cfg.capacity_pos
  unfold statusFor
  split
  · have : n ≠ 0 := by omega
    simp [this]
  · split <;> simp [*]

theorem statusFor_eq_filling_iff {cfg : Config} {n : Nat} {c : BitVec 3} (hn : n ≤ cfg.capacity) :
    statusFor cfg n c = .filling ↔ n < cfg.capacity ∧ (0 < n ∨ c ≠ 0#3) := by
  unfold statusFor
  split
  · simp [*]
  · have hlt : n < cfg.capacity := by omega
    split
    · simp [*]
    · have : 0 < n ∨ c ≠ 0#3 := by
        by_cases h0 : n = 0
        · exact .inr fun hc => ‹¬(n = 0 ∧ c = 0#3)› ⟨h0, hc⟩
        · exact .inl (by omega)
      simp [hlt, this]

/-- After a commit the accumulator is empty and the cursor is not 0. -/
theorem statusFor_after_commit (cfg : Config) (n : Nat) :
    statusFor cfg (n + 1) 0#3 = statusAfterCommit cfg (n + 1) := by
  simp [statusFor, statusAfterCommit]

/-! ### The invariant -/

/-- An initialised block whose cursor is within the buffer and whose stored `status` is the function
of the cursor that R21 and R22 make it. -/
structure State.TracksFill (s : State) : Prop where
  inited : s.inited = true
  fill_le : s.fillIndex ≤ s.cfg.capacity
  status_eq : s.status = statusFor s.cfg s.fillIndex s.cnt

/-- Only `inited`, the cursor, `status` and the parameter bear on it: neither the pairing slot nor the
result returned does. -/
theorem State.TracksFill.congr {s t : State} (hs : s.TracksFill) (hi : t.inited = s.inited)
    (hcfg : t.cfg = s.cfg) (hf : t.fillIndex = s.fillIndex) (hc : t.cnt = s.cnt)
    (hst : t.status = s.status) : t.TracksFill := by
  obtain ⟨inited, fill_le, status_eq⟩ := hs
  exact ⟨hi ▸ inited, by rwa [hf, hcfg], by rwa [hst, hcfg, hf, hc]⟩

theorem State.tracksFill_cleared (s : State) : s.cleared.TracksFill :=
  ⟨rfl, Nat.zero_le _, (statusFor_eq_empty_iff.mpr ⟨rfl, rfl⟩).symm⟩

/-- A commit moves the cursor by one byte within the buffer and writes the matching `status` (R78). -/
theorem State.TracksFill.commit {byte : Byte} {s t : State} (hs : s.TracksFill)
    (h : s.commit byte = .next t) : t.TracksFill := by
  obtain ⟨hlt, rfl⟩ := State.commit_eq_next.mp h
  exact ⟨hs.inited, hlt, (statusFor_after_commit _ _).symm⟩

/-- An append on a block that is not Full: Filling is right, as `cnt` becomes one of 1 to 7. -/
theorem State.TracksFill.append {e : Bit} {s t : State} (hs : s.TracksFill)
    (hfull : s.status ≠ .full) (h : s.append e = .next t) : t.TracksFill := by
  obtain ⟨hcnt, rfl⟩ | ⟨-, hcommit⟩ := State.append_eq_next.mp h
  · have hne : s.fillIndex ≠ s.cfg.capacity :=
      fun heq => hfull (hs.status_eq.trans (statusFor_eq_full_iff.mpr heq))
    have hpos : BitVec.ofNat 3 (s.cnt.toNat + 1) ≠ 0#3 := by bv_omega
    have hlt : s.fillIndex < s.cfg.capacity := Nat.lt_of_le_of_ne hs.fill_le hne
    exact ⟨hs.inited, hs.fill_le,
      ((statusFor_eq_filling_iff hs.fill_le).mpr ⟨hlt, .inr hpos⟩).symm⟩
  · exact hs.commit hcommit

theorem State.TracksFill.accept {b : Nat} {s t : State} (hs : s.TracksFill)
    (h : execAccept b s = .next t) : t.TracksFill := by
  obtain ⟨-, -, ⟨-, rfl⟩ | ⟨-, -, rfl⟩ | ⟨-, -, -, rfl⟩ | ⟨hfull, -, -, happend⟩⟩ :=
    execAccept_eq_next h
  · exact hs.congr rfl rfl rfl rfl rfl
  · exact hs.congr rfl rfl rfl rfl rfl
  · exact hs.congr rfl rfl rfl rfl rfl
  · have hempty : s.emptySlot.TracksFill := hs.congr rfl rfl rfl rfl rfl
    exact hempty.append hfull happend

theorem State.TracksFill.exec {i : Instr} {s t : State} (h : exec i s = .next t)
    (hs : s.TracksFill) : t.TracksFill := by
  cases i with
  | init => cases h; exact s.tracksFill_cleared.congr rfl rfl rfl rfl rfl
  | reset => cases h; exact s.tracksFill_cleared.congr rfl rfl rfl rfl rfl
  | accept b => exact hs.accept h
  | status =>
    rw [exec_status_of_inited hs.inited] at h
    cases h
    exact hs.congr rfl rfl rfl rfl rfl
  | buffer =>
    rw [exec_buffer_of_inited hs.inited] at h
    cases h
    exact hs.congr rfl rfl rfl rfl rfl

/-- The invariant holds at every operation boundary from an INIT or RESET onward, whatever the state
before it. -/
theorem tracksFill_of_runOps {i : Instr} {ops : List Instr} {s t : State} {rs : List Response}
    (hi : beginsCycle i = true) (h : runOps (i :: ops) s = .next (t, rs)) : t.TracksFill := by
  obtain ⟨u, rs', hu, hrest, -⟩ := runOps_cons_next.mp h
  rw [exec_of_beginsCycle hi] at hu
  cases hu
  exact runOps_keeps State.TracksFill.exec hrest
    (s.tracksFill_cleared.congr rfl rfl rfl rfl rfl)

/-- Settles O11: INIT and RESET establish that `status` is R21's and R22's function of the cursor,
every operation keeps it, and the three equivalences are read off that function. -/
theorem statusIsFunctionOfFill : Obligations.StatusIsFunctionOfFill := by
  intro s t i ops rs hi h
  obtain ⟨-, fill_le, status_eq⟩ := tracksFill_of_runOps hi h
  rw [status_eq]
  exact ⟨statusFor_eq_full_iff, statusFor_eq_empty_iff, statusFor_eq_filling_iff fill_le, rfl⟩

end Sys2Proof.Machine
end

section
/-! Reads of the buffer and of `status`: they leave the block as it is (R35), and once it is Full they
show what its collection cycle's raw bits give (R40). -/

namespace Sys2Proof.Machine

/-! ### Reads -/

/-- The result returned is no hardware element. -/
theorem State.sameElements_done (r : Response) (s : State) : s.SameElements (s.done r) :=
  ⟨rfl, fun _ => rfl, rfl, rfl, rfl, rfl, rfl, rfl, rfl⟩

theorem State.sameSurroundings_done (r : Response) (s : State) : s.SameSurroundings (s.done r) :=
  ⟨rfl, rfl, rfl, rfl⟩

/-- A read only returns a result, which does not depend on the result before it (R87, R89). -/
theorem exec_read_eq_done {s : State} {i : Instr} (hs : s.inited = true)
    (hi : i = .status ∨ i = .buffer) :
    ∃ r, exec i s = .next (s.done r) ∧ ∀ r', exec i (s.done r') = .next (s.done r) := by
  obtain rfl | rfl := hi
  · exact ⟨.status s.status, exec_status_of_inited hs, fun _ => exec_status_of_inited hs⟩
  · exact ⟨.view s.viewBytes, exec_buffer_of_inited hs, fun _ => exec_buffer_of_inited hs⟩

/-- Settles O35: a read changes only the result, and the same read after it returns that again. -/
theorem readsHaveNoSideEffects : Obligations.ReadsHaveNoSideEffects := by
  intro s i hs hi
  obtain ⟨r, hread, hagain⟩ := exec_read_eq_done hs hi
  exact ⟨s.done r, s.done r, hread, s.sameElements_done r, s.sameSurroundings_done r, hagain r, rfl,
    s.sameElements_done r⟩

/-! ### The operations of one collection cycle -/

@[simp] theorem withinCycle_cons (i : Instr) (ops : List Instr) :
    withinCycle (i :: ops) = true ↔
      i.WellFormed ∧ beginsCycle i = false ∧ withinCycle ops = true := by
  simp [withinCycle, and_assoc]

theorem Instr.wellFormed_accept {b : Nat} : (Instr.accept b).WellFormed ↔ b < 2 := by
  simp only [Instr.WellFormed, Instr.wellFormed, Bool.or_eq_true, beq_iff_eq]
  omega

/-- On a Full block no operation of the cycle changes anything but the result (R71, R85). -/
theorem exec_of_full {i : Instr} {s : State} (hwf : i.WellFormed) (hi : beginsCycle i = false)
    (hs : s.inited = true) (hfull : s.status = .full) : ∃ r, exec i s = .next (s.done r) := by
  cases i with
  | init => cases hi
  | reset => cases hi
  | accept b =>
    have hbit : rawBit b = some (BitVec.ofNat 1 b) :=
      rawBit_eq_some.mpr ⟨Instr.wellFormed_accept.mp hwf, rfl⟩
    exact ⟨.nothing, by simp [exec, execAccept, hbit, hs, hfull]⟩
  | status => exact ⟨_, exec_status_of_inited hs⟩
  | buffer => exact ⟨_, exec_buffer_of_inited hs⟩

theorem runOps_of_full {ops : List Instr} {s : State} (hops : withinCycle ops = true)
    (hs : s.inited = true) (hfull : s.status = .full) :
    ∃ r rs, runOps ops s = .next (s.done r, rs) := by
  induction ops generalizing s with
  | nil => exact ⟨s.response, [], rfl⟩
  | cons i ops ih =>
    obtain ⟨hwf, hi, hops⟩ := (withinCycle_cons i ops).mp hops
    obtain ⟨r, hexec⟩ := exec_of_full hwf hi hs hfull
    obtain ⟨r', rs, hrest⟩ := ih hops (s := s.done r) hs hfull
    exact ⟨r', _, runOps_cons_next.mpr ⟨_, _, hexec, hrest, rfl⟩⟩

/-- No sequence of operations changes the parameter (R110). -/
theorem runOps_keeps_cfg {ops : List Instr} {s t : State} {rs : List Response}
    (h : runOps ops s = .next (t, rs)) : t.cfg = s.cfg :=
  runOps_keeps (P := fun u => u.cfg = s.cfg)
    (fun hexec hu => (exec_keeps_cfg_input hexec).1.trans hu) h rfl

/-! ### Corrected bits of a raw stream -/

/-- Pairs do not overlap, so a stream cut after a whole number of pairs falls into the pairs of its
two parts (R73). -/
theorem pairsOf_append {p : List Bit} (hp : p.length % 2 = 0) (q : List Bit) :
    pairsOf (p ++ q) = pairsOf p ++ pairsOf q := by
  induction p using pairsOf.induct with
  | case1 a b rest ih =>
    have hrest : rest.length % 2 = 0 := by
      simp only [List.length_cons] at hp
      omega
    simp [pairsOf, ih hrest]
  | case2 a => simp at hp
  | case3 => rfl

theorem correctedBits_append {p : List Bit} (hp : p.length % 2 = 0) (q : List Bit) :
    correctedBits (p ++ q) = correctedBits p ++ correctedBits q := by
  simp [correctedBits, differing, pairsOf_append hp]

theorem correctedBits_pair_eq (a : Bit) : correctedBits [a, a] = [] := by
  simp [correctedBits, differing, pairsOf]

theorem correctedBits_pair_ne {a b : Bit} (h : a ≠ b) : correctedBits [a, b] = [a] := by
  simp [correctedBits, differing, pairsOf, h]

/-! ### Packing -/

theorem packBits_lt (l : List Bit) : packBits l < 2 ^ l.length := by
  induction l with
  | nil => simp [packBits]
  | cons e l ih =>
    have he := e.isLt
    rw [packBits, List.length_cons, Nat.pow_succ]
    omega

/-- A bit put after the others stands above them. -/
theorem packBits_concat (l : List Bit) (e : Bit) :
    packBits (l ++ [e]) = packBits l + e.toNat * 2 ^ l.length := by
  induction l with
  | nil => simp [packBits]
  | cons d l ih =>
    rw [List.cons_append, packBits, packBits, ih, List.length_cons, Nat.pow_succ]
    ring

/-- A byte once complete is not touched by the bits after it. -/
theorem packedByte_append {e : List Bit} {k : Nat} (h : 8 * (k + 1) ≤ e.length) (q : List Bit) :
    packedByte (e ++ q) k = packedByte e k := by
  rw [packedByte, packedByte, List.drop_append_of_le_length (by omega),
    List.take_append_of_le_length (by rw [List.length_drop]; omega)]

theorem packedByte_of_length_le {e : List Bit} {k : Nat} (h : e.length ≤ 8 * k) :
    packedByte e k = 0x00#8 := by
  rw [packedByte, List.drop_eq_nil_of_le h]
  rfl

/-- The next bit of a byte that is not complete is appended at position `c` (R30, R76). -/
theorem packedByte_concat {e : List Bit} {k : Nat} {c : BitVec 3} (b : Bit)
    (h : e.length = 8 * k + c.toNat) :
    packedByte (e ++ [b]) k = appendTo (packedByte e k) b c := by
  have hc := c.isLt
  have hlen : (e.drop (8 * k)).length = c.toNat := by rw [List.length_drop]; omega
  have htake : (e.drop (8 * k)).take 8 = e.drop (8 * k) := List.take_of_length_le (by omega)
  have hnew : ((e ++ [b]).drop (8 * k)).take 8 = e.drop (8 * k) ++ [b] := by
    rw [List.drop_append_of_le_length (by omega)]
    exact List.take_of_length_le (by rw [List.length_append, hlen, List.length_singleton]; omega)
  have hpack : packBits (e.drop (8 * k)) < 2 ^ c.toNat := hlen ▸ packBits_lt _
  have hbyte : (packedByte e k).toNat = packBits (e.drop (8 * k)) := by
    have : 2 ^ c.toNat ≤ 2 ^ 8 := Nat.pow_le_pow_right (by omega) (by omega)
    rw [packedByte, htake, BitVec.toNat_ofNat, Nat.mod_eq_of_lt (by omega)]
  have happend := toNat_appendTo (e := b) (hbyte ▸ hpack)
  apply BitVec.eq_of_toNat_eq
  rw [packedByte, hnew, packBits_concat, hlen, BitVec.toNat_ofNat, ← hbyte, ← happend]
  exact Nat.mod_eq_of_lt (appendTo _ _ _).isLt

/-! ### What a block stores -/

/-- The corrected bits `e`, and no others, are what the block holds, packed by R31: the last of them
in the accumulator, the others in the committed bytes. -/
structure State.Stores (s : State) (e : List Bit) : Prop where
  buf_wf : s.buf.wf
  length_eq : e.length = s.bitCursor
  read_eq : ∀ k, k < s.fillIndex → s.buf.read k = packedByte e k
  acc_eq : s.acc = packedByte e s.fillIndex

/-- Only the buffer, the cursor and the accumulator bear on it. -/
theorem State.Stores.congr {s t : State} {e : List Bit} (hs : s.Stores e) (hb : t.buf = s.buf)
    (hf : t.fillIndex = s.fillIndex) (ha : t.acc = s.acc) (hc : t.cnt = s.cnt) : t.Stores e := by
  obtain ⟨buf_wf, length_eq, read_eq, acc_eq⟩ := hs
  exact ⟨by rwa [hb], by rwa [State.bitCursor, hf, hc], by rwa [hb, hf], by rwa [ha, hf]⟩

theorem State.stores_nil_cleared (s : State) : s.cleared.Stores [] :=
  ⟨Memory.nil_wf, rfl, fun _ hk => absurd hk (Nat.not_lt_zero _), rfl⟩

/-- A block stores enough bits to fill each byte it has committed. -/
theorem State.Stores.byte_complete {s : State} {e : List Bit} (hs : s.Stores e) {k : Nat}
    (hk : k < s.fillIndex) : 8 * (k + 1) ≤ e.length := by
  rw [hs.length_eq, State.bitCursor]
  omega

/-- A commit of the byte that `b` completes stores `b` (R77). -/
theorem State.Stores.commit {s t : State} {e : List Bit} {b : Bit} (hs : s.Stores e)
    (hcnt : s.cnt.toNat = 7) (h : s.commit (appendTo s.acc b s.cnt) = .next t) :
    t.Stores (e ++ [b]) := by
  obtain ⟨-, rfl⟩ := State.commit_eq_next.mp h
  have hlen : (e ++ [b]).length = 8 * (s.fillIndex + 1) := by
    simp only [List.length_append, List.length_singleton, hs.length_eq, State.bitCursor, hcnt]
    omega
  refine ⟨Memory.write_wf _ _ hs.buf_wf, hlen, fun k hk => ?_,
    (packedByte_of_length_le hlen.le).symm⟩
  show (s.buf.write s.fillIndex (appendTo s.acc b s.cnt)).read k = _
  obtain hlt | rfl := Nat.lt_succ_iff_lt_or_eq.mp hk
  · rw [Memory.read_write_other hs.buf_wf _ hlt.ne, hs.read_eq k hlt,
      packedByte_append (hs.byte_complete hlt)]
  · rw [Memory.read_write_same hs.buf_wf, packedByte_concat b hs.length_eq, hs.acc_eq]

/-- An append stores one bit more (R76). -/
theorem State.Stores.append {s t : State} {e : List Bit} {b : Bit} (hs : s.Stores e)
    (h : s.append b = .next t) : t.Stores (e ++ [b]) := by
  obtain ⟨hcnt, rfl⟩ | ⟨hcnt, hcommit⟩ := State.append_eq_next.mp h
  · refine ⟨hs.buf_wf, ?_, fun k hk => ?_, ?_⟩
    · have hnext : (BitVec.ofNat 3 (s.cnt.toNat + 1)).toNat = s.cnt.toNat + 1 := by
        rw [BitVec.toNat_ofNat]
        omega
      simp only [List.length_append, List.length_singleton, hs.length_eq, State.bitCursor, hnext]
      omega
    · exact (hs.read_eq k hk).trans (packedByte_append (hs.byte_complete hk) [b]).symm
    · show appendTo s.acc b s.cnt = packedByte (e ++ [b]) s.fillIndex
      rw [packedByte_concat b hs.length_eq, hs.acc_eq]
  · exact hs.commit hcnt hcommit

/-! ### What a block has collected -/

/-- The raw bits that wait in the pairing slot: one or none (R19). -/
def State.slotBits (s : State) : List Bit := if s.pairValid then [s.pairBit] else []

theorem State.slotBits_of_empty {s : State} (h : s.pairValid = false) : s.slotBits = [] := by
  simp [State.slotBits, h]

theorem State.slotBits_of_valid {s : State} (h : s.pairValid = true) :
    s.slotBits = [s.pairBit] := by
  simp [State.slotBits, h]

/-- An append does not touch the pairing slot. -/
theorem State.append_keeps_slotBits {e : Bit} {s t : State} (h : s.append e = .next t) :
    t.slotBits = s.slotBits := by
  obtain ⟨-, rfl⟩ | ⟨-, hcommit⟩ := State.append_eq_next.mp h
  · rfl
  · obtain ⟨-, rfl⟩ := State.commit_eq_next.mp hcommit
    rfl

/-- The block after the raw bits `r` of a cycle, of which `p` are its completed pairs: it stores the
corrected bits of `p`, and what of `r` is not in `p` waits in the slot, or was dropped by a Full
block. -/
structure State.Collected (s : State) (r p : List Bit) : Prop where
  tracks : s.TracksFill
  whole_pairs : p.length % 2 = 0
  stores : s.Stores (correctedBits p)
  isPrefix : p <+: r
  rest_waits : s.status ≠ .full → r = p ++ s.slotBits

theorem State.collected_nil_cleared (s : State) : (s.cleared.done .nothing).Collected [] [] where
  tracks := s.tracksFill_cleared.congr rfl rfl rfl rfl rfl
  whole_pairs := rfl
  stores := s.stores_nil_cleared.congr rfl rfl rfl rfl
  isPrefix := List.prefix_rfl
  rest_waits _ := rfl

/-- The result returned has no bearing on it. -/
theorem State.Collected.done {s : State} {r p : List Bit} (hs : s.Collected r p) (x : Response) :
    (s.done x).Collected r p where
  tracks := hs.tracks.congr rfl rfl rfl rfl rfl
  whole_pairs := hs.whole_pairs
  stores := hs.stores.congr rfl rfl rfl rfl
  isPrefix := hs.isPrefix
  rest_waits := hs.rest_waits

/-- The second bit of a pair completes it: the block has collected one pair more when it stores that
pair's corrected bits and its slot is empty. -/
theorem State.Collected.complete_pair {s t : State} {r p : List Bit} {b : Bit}
    (hs : s.Collected r p) (hfull : s.status ≠ .full) (hv : s.pairValid = true)
    (htracks : t.TracksFill) (hslot : t.slotBits = [])
    (hstores : t.Stores (correctedBits p ++ correctedBits [s.pairBit, b])) :
    t.Collected (r ++ [b]) (p ++ [s.pairBit, b]) := by
  have hr : r ++ [b] = p ++ [s.pairBit, b] := by
    rw [hs.rest_waits hfull, State.slotBits_of_valid hv, List.append_assoc]
    rfl
  refine ⟨htracks, ?_, ?_, hr ▸ List.prefix_rfl, fun _ => ?_⟩
  · have := hs.whole_pairs
    simp only [List.length_append, List.length_cons, List.length_nil]
    omega
  · rwa [correctedBits_append hs.whole_pairs]
  · rw [hslot, List.append_nil, hr]

/-- One ACCEPT, in R69's cases: the bit is dropped by a Full block, held in an empty slot, or
completes an equal or a differing pair. -/
theorem State.Collected.accept {b : Nat} {s t : State} {r p : List Bit} (hs : s.Collected r p)
    (h : execAccept b s = .next t) : ∃ p', t.Collected (r ++ [BitVec.ofNat 1 b]) p' := by
  have htracks := hs.tracks.accept h
  obtain ⟨-, -, hcase⟩ := execAccept_eq_next h
  obtain ⟨hfull, rfl⟩ | ⟨hfull, hv, rfl⟩ | ⟨hfull, hv, heq, rfl⟩ | ⟨hfull, hv, hne, happend⟩ :=
    hcase
  · exact ⟨p, htracks, hs.whole_pairs, hs.stores.congr rfl rfl rfl rfl,
      hs.isPrefix.trans (List.prefix_append r _), fun hnot => absurd hfull hnot⟩
  · have hr : r = p := by
      rw [hs.rest_waits hfull, State.slotBits_of_empty hv, List.append_nil]
    exact ⟨p, htracks, hs.whole_pairs, hs.stores.congr rfl rfl rfl rfl,
      hs.isPrefix.trans (List.prefix_append r _), fun _ => by rw [hr]; rfl⟩
  · refine ⟨_, hs.complete_pair hfull hv htracks rfl ?_⟩
    rw [← heq, correctedBits_pair_eq, List.append_nil]
    exact hs.stores.congr rfl rfl rfl rfl
  · refine ⟨_, hs.complete_pair hfull hv htracks (State.append_keeps_slotBits happend) ?_⟩
    rw [correctedBits_pair_ne hne]
    have hempty : s.emptySlot.Stores (correctedBits p) := hs.stores.congr rfl rfl rfl rfl
    exact hempty.append happend

/-- An operation of the cycle adds the raw bit it feeds, if it feeds one. -/
theorem State.Collected.exec {i : Instr} {s t : State} {r p : List Bit} (hs : s.Collected r p)
    (hi : beginsCycle i = false) (h : exec i s = .next t) :
    ∃ p', t.Collected (r ++ rawBits [i]) p' := by
  cases i with
  | init => cases hi
  | reset => cases hi
  | accept b => exact hs.accept h
  | status =>
    rw [exec_status_of_inited hs.tracks.inited] at h
    cases h
    exact ⟨p, by simpa [rawBits] using hs.done _⟩
  | buffer =>
    rw [exec_buffer_of_inited hs.tracks.inited] at h
    cases h
    exact ⟨p, by simpa [rawBits] using hs.done _⟩

theorem rawBits_cons (i : Instr) (ops : List Instr) :
    rawBits (i :: ops) = rawBits [i] ++ rawBits ops := by
  cases i <;> rfl

theorem State.Collected.runOps {ops : List Instr} {s t : State} {r p : List Bit}
    {rs : List Response} (hs : s.Collected r p) (hops : withinCycle ops = true)
    (h : runOps ops s = .next (t, rs)) : ∃ p', t.Collected (r ++ rawBits ops) p' := by
  induction ops generalizing s r p rs with
  | nil =>
    cases h
    exact ⟨p, by simpa [rawBits] using hs⟩
  | cons i ops ih =>
    obtain ⟨-, hi, hops⟩ := (withinCycle_cons i ops).mp hops
    obtain ⟨u, rs', hu, hrest, -⟩ := runOps_cons_next.mp h
    obtain ⟨p', hs'⟩ := hs.exec hi hu
    rw [rawBits_cons, ← List.append_assoc]
    exact ih hs' hops hrest

/-- From an INIT or RESET onward a block has collected the raw bits fed to it, whatever the state
before. -/
theorem collected_of_runOps {i : Instr} {ops : List Instr} {s t : State} {rs : List Response}
    (hi : beginsCycle i = true) (hops : withinCycle ops = true)
    (h : runOps (i :: ops) s = .next (t, rs)) : ∃ p, t.Collected (rawBits ops) p := by
  obtain ⟨u, rs', hu, hrest, -⟩ := runOps_cons_next.mp h
  rw [exec_of_beginsCycle hi] at hu
  cases hu
  exact s.collected_nil_cleared.runOps hops hrest

/-- Each committed byte is packed from the corrected bits of all the raw bits fed (R31): those that a
Full block dropped come after the byte's own. -/
theorem State.Collected.read_eq {s : State} {r p : List Bit} (hs : s.Collected r p) {k : Nat}
    (hk : k < s.fillIndex) : s.buf.read k = packedByte (correctedBits r) k := by
  obtain ⟨q, rfl⟩ := hs.isPrefix
  rw [correctedBits_append hs.whole_pairs, packedByte_append (hs.stores.byte_complete hk),
    hs.stores.read_eq k hk]

/-! ### Publication -/

/-- The view of a Full block is the packed stream (R40). -/
theorem State.Collected.viewBytes_of_full {s : State} {r p : List Bit} (hs : s.Collected r p)
    (hfull : s.status = .full) {k : Nat} (hk : k < s.cfg.capacity) :
    s.viewBytes[k]? = some (packedByte (correctedBits r) k) := by
  have hfill : s.fillIndex = s.cfg.capacity :=
    statusFor_eq_full_iff.mp (hs.tracks.status_eq ▸ hfull)
  rw [State.viewBytes, List.getElem?_eq_getElem (by simpa using hk), Memory.getElem_bytes,
    hs.read_eq (hfill ▸ hk)]

/-- Settles O50: a STATUS returns Full only of a Full block, whose committed bytes are all of them;
the rest of the cycle changes nothing, so every later BUFFER shows them. -/
theorem fullPublishesAllBytes : Obligations.FullPublishesAllBytes := by
  intro s t i ops later rs hi hops hlater h hresponse
  obtain ⟨u, _, _, hu, hstatus, -⟩ := runOps_append_next.mp h
  obtain ⟨p, hs⟩ := collected_of_runOps hi hops hu
  have hcfg : u.cfg = s.cfg := runOps_keeps_cfg hu
  obtain ⟨v, _, hv, hnil, -⟩ := runOps_cons_next.mp hstatus
  rw [exec_status_of_inited hs.tracks.inited] at hv
  cases hv
  cases hnil
  have hfull : u.status = .full := Response.status.inj hresponse
  obtain ⟨r, rs', hrest⟩ := runOps_of_full (s := u.done (.status u.status)) hlater
    hs.tracks.inited hfull
  have hbuffer := exec_buffer_of_inited (s := u.done r) hs.tracks.inited
  refine ⟨_, _, u.viewBytes,
    runOps_append_next.mpr ⟨_, _, _, hrest, runOps_cons_next.mpr ⟨_, _, hbuffer, rfl, rfl⟩, rfl⟩,
    rfl, ?_, fun k hk => hs.viewBytes_of_full hfull (hcfg.symm ▸ hk)⟩
  rw [State.viewBytes, Memory.length_bytes, hcfg]

end Sys2Proof.Machine
end

section
/-! What the operations that write return: nothing, on every path on which they complete (R54). -/

namespace Sys2Proof.Machine

theorem State.commit_returns_nothing {byte : Byte} {s t : State} (h : s.commit byte = .next t) :
    t.response = .nothing := by
  obtain ⟨-, rfl⟩ := State.commit_eq_next.mp h
  rfl

/-- The result does not tell an append that completes a byte from one that does not. -/
theorem State.append_returns_nothing {e : Bit} {s t : State} (h : s.append e = .next t) :
    t.response = .nothing := by
  obtain ⟨-, rfl⟩ | ⟨-, hcommit⟩ := State.append_eq_next.mp h
  · rfl
  · exact State.commit_returns_nothing hcommit

/-- The result does not tell R69's cases apart: the bit is dropped by a Full block, held in an empty
slot, discarded with an equal one, or completes a pair whose first bit is appended. -/
theorem execAccept_returns_nothing {b : Nat} {s t : State} (h : execAccept b s = .next t) :
    t.response = .nothing := by
  obtain ⟨-, -, ⟨-, rfl⟩ | ⟨-, -, rfl⟩ | ⟨-, -, -, rfl⟩ | ⟨-, -, -, happend⟩⟩ :=
    execAccept_eq_next h
  · exact State.done_response _ _
  · exact State.done_response _ _
  · exact State.done_response _ _
  · exact State.append_returns_nothing happend

theorem exec_beginsCycle_returns_nothing {i : Instr} {s t : State} (hi : beginsCycle i = true)
    (h : exec i s = .next t) : t.response = .nothing := by
  rw [exec_of_beginsCycle hi] at h
  cases h
  exact State.done_response _ _

/-- Settles O36: apart from the two reads, an operation is INIT or RESET, which begin a cycle, or an
ACCEPT; none of these returns a value. -/
theorem writersReturnNothing : Obligations.WritersReturnNothing := by
  intro s t i hstatus hbuffer h
  cases i with
  | init => exact exec_beginsCycle_returns_nothing rfl h
  | reset => exact exec_beginsCycle_returns_nothing rfl h
  | accept b => exact execAccept_returns_nothing h
  | status => exact absurd rfl hstatus
  | buffer => exact absurd rfl hbuffer

end Sys2Proof.Machine
end

section
/-! A collection cycle runs to its end, and what it does depends on the hardware elements only: neither
what a block held before its INIT or RESET nor what surrounds it has a bearing on the cycle (R66). -/

namespace Sys2Proof.Machine

/-! ### The cases of ACCEPT on an initialised block (R69) -/

section AcceptCases
variable {b : Nat} {s : State} (hb : b < 2) (hs : s.inited = true)
include hb hs

theorem execAccept_of_full (hfull : s.status = .full) :
    execAccept b s = .next (s.done .nothing) := by
  simp [execAccept, rawBit_eq_some.mpr ⟨hb, rfl⟩, hs, hfull]

theorem execAccept_of_empty_slot (hfull : s.status ≠ .full) (hv : s.pairValid = false) :
    execAccept b s = .next ((s.holdBit (BitVec.ofNat 1 b)).done .nothing) := by
  simp [execAccept, rawBit_eq_some.mpr ⟨hb, rfl⟩, hs, hfull, hv]

theorem execAccept_of_pair_eq (hfull : s.status ≠ .full) (hv : s.pairValid = true)
    (heq : s.pairBit = BitVec.ofNat 1 b) : execAccept b s = .next (s.emptySlot.done .nothing) := by
  simp [execAccept, rawBit_eq_some.mpr ⟨hb, rfl⟩, hs, hfull, hv, correctPair_eq_none.mpr heq]

theorem execAccept_of_pair_ne (hfull : s.status ≠ .full) (hv : s.pairValid = true)
    (hne : s.pairBit ≠ BitVec.ofNat 1 b) :
    execAccept b s = s.emptySlot.append s.pairBit := by
  simp [execAccept, rawBit_eq_some.mpr ⟨hb, rfl⟩, hs, hfull, hv,
    correctPair_eq_some.mpr ⟨hne, rfl⟩]

end AcceptCases

/-! ### Completion -/

/-- A block with room for a byte takes a corrected bit, whether or not it completes that byte. -/
theorem State.append_completes {s : State} (e : Bit) (h : s.fillIndex < s.cfg.capacity) :
    ∃ t, s.append e = .next t := by
  have hcnt := s.cnt.isLt
  by_cases hlt : s.cnt.toNat < 7
  · exact ⟨_, State.append_eq_next.mpr (.inl ⟨hlt, rfl⟩)⟩
  · have h7 : s.cnt.toNat = 7 := by omega
    exact ⟨_, State.append_eq_next.mpr (.inr ⟨h7, State.commit_eq_next.mpr ⟨h, rfl⟩⟩)⟩

/-- A block that is not Full has room for a byte. -/
theorem State.TracksFill.fill_lt {s : State} (hs : s.TracksFill) (hfull : s.status ≠ .full) :
    s.fillIndex < s.cfg.capacity :=
  Nat.lt_of_le_of_ne hs.fill_le fun heq =>
    hfull (hs.status_eq.trans (statusFor_eq_full_iff.mpr heq))

theorem State.TracksFill.accept_completes {b : Nat} {s : State} (hs : s.TracksFill) (hb : b < 2) :
    ∃ t, execAccept b s = .next t := by
  by_cases hfull : s.status = .full
  · exact ⟨_, execAccept_of_full hb hs.inited hfull⟩
  by_cases hv : s.pairValid = true
  · by_cases heq : s.pairBit = BitVec.ofNat 1 b
    · exact ⟨_, execAccept_of_pair_eq hb hs.inited hfull hv heq⟩
    · rw [execAccept_of_pair_ne hb hs.inited hfull hv heq]
      exact s.emptySlot.append_completes s.pairBit (hs.fill_lt hfull)
  · exact ⟨_, execAccept_of_empty_slot hb hs.inited hfull (Bool.eq_false_of_not_eq_true hv)⟩

theorem State.TracksFill.exec_completes {i : Instr} {s : State} (hs : s.TracksFill)
    (hi : i.WellFormed) : ∃ t, Machine.exec i s = .next t := by
  cases i with
  | init => exact ⟨_, rfl⟩
  | reset => exact ⟨_, rfl⟩
  | accept b => exact hs.accept_completes (Instr.wellFormed_accept.mp hi)
  | status => exact ⟨_, exec_status_of_inited hs.inited⟩
  | buffer => exact ⟨_, exec_buffer_of_inited hs.inited⟩

theorem State.TracksFill.runOps_completes {ops : List Instr} {s : State} (hs : s.TracksFill)
    (hops : withinCycle ops = true) : ∃ t rs, runOps ops s = .next (t, rs) := by
  induction ops generalizing s with
  | nil => exact ⟨s, [], rfl⟩
  | cons i ops ih =>
    obtain ⟨hwf, -, hops⟩ := (withinCycle_cons i ops).mp hops
    obtain ⟨u, hexec⟩ := hs.exec_completes hwf
    obtain ⟨t, rs, hrest⟩ := ih (hs.exec hexec) hops
    exact ⟨t, _, runOps_cons_next.mpr ⟨u, rs, hexec, hrest, rfl⟩⟩

/-! ### Independence of the surroundings -/

/-- The block `s` where `u` stands: its hardware elements and its result are those of `s`; the stimuli
waiting, the mark and the counter of free values are those of `u`. -/
def State.inSurroundingsOf (s u : State) : State :=
  { s with input := u.input, violated := u.violated, fresh := u.fresh }

theorem State.sameElements_inSurroundingsOf (s u : State) : s.SameElements (s.inSurroundingsOf u) :=
  ⟨rfl, fun _ => rfl, rfl, rfl, rfl, rfl, rfl, rfl, rfl⟩

/-- Two blocks of one capacity differ only in their surroundings once they are cleared. -/
theorem State.cleared_inSurroundingsOf {s s' : State} (h : s'.cfg = s.cfg) :
    (s.cleared.done .nothing).inSurroundingsOf s' = s'.cleared.done .nothing := by
  simp [State.inSurroundingsOf, State.cleared, State.done, h]

theorem State.commit_inSurroundingsOf {byte : Byte} {s t : State} (u : State)
    (h : s.commit byte = .next t) :
    (s.inSurroundingsOf u).commit byte = .next (t.inSurroundingsOf u) := by
  obtain ⟨hlt, rfl⟩ := State.commit_eq_next.mp h
  exact State.commit_eq_next.mpr ⟨hlt, rfl⟩

theorem State.append_inSurroundingsOf {e : Bit} {s t : State} (u : State)
    (h : s.append e = .next t) :
    (s.inSurroundingsOf u).append e = .next (t.inSurroundingsOf u) := by
  obtain ⟨hcnt, rfl⟩ | ⟨hcnt, hcommit⟩ := State.append_eq_next.mp h
  · exact State.append_eq_next.mpr (.inl ⟨hcnt, rfl⟩)
  · exact State.append_eq_next.mpr (.inr ⟨hcnt, State.commit_inSurroundingsOf u hcommit⟩)

/-- The same case of R69 applies wherever the block stands. -/
theorem execAccept_inSurroundingsOf {b : Nat} {s t : State} (u : State)
    (h : execAccept b s = .next t) :
    execAccept b (s.inSurroundingsOf u) = .next (t.inSurroundingsOf u) := by
  obtain ⟨hb, hs, hcase⟩ := execAccept_eq_next h
  obtain ⟨hfull, rfl⟩ | ⟨hfull, hv, rfl⟩ | ⟨hfull, hv, heq, rfl⟩ | ⟨hfull, hv, hne, happend⟩ :=
    hcase
  · exact execAccept_of_full (s := s.inSurroundingsOf u) hb hs hfull
  · exact execAccept_of_empty_slot (s := s.inSurroundingsOf u) hb hs hfull hv
  · exact execAccept_of_pair_eq (s := s.inSurroundingsOf u) hb hs hfull hv heq
  · exact (execAccept_of_pair_ne (s := s.inSurroundingsOf u) hb hs hfull hv hne).trans
      (State.append_inSurroundingsOf u happend)

/-- Before the first INIT a read draws free values, which the surroundings number; so `inited` is
asked for. -/
theorem exec_inSurroundingsOf {i : Instr} {s t : State} (u : State) (hs : s.inited = true)
    (h : exec i s = .next t) : exec i (s.inSurroundingsOf u) = .next (t.inSurroundingsOf u) := by
  cases i with
  | init => cases h; rfl
  | reset => cases h; rfl
  | accept b => exact execAccept_inSurroundingsOf u h
  | status =>
    rw [exec_status_of_inited hs] at h
    cases h
    exact exec_status_of_inited (s := s.inSurroundingsOf u) hs
  | buffer =>
    rw [exec_buffer_of_inited hs] at h
    cases h
    exact exec_buffer_of_inited (s := s.inSurroundingsOf u) hs

theorem State.TracksFill.runOps_inSurroundingsOf {ops : List Instr} {s t : State}
    {rs : List Response} (u : State) (hs : s.TracksFill)
    (h : runOps ops s = .next (t, rs)) :
    runOps ops (s.inSurroundingsOf u) = .next (t.inSurroundingsOf u, rs) := by
  induction ops generalizing s rs with
  | nil => cases h; rfl
  | cons i ops ih =>
    obtain ⟨v, rs', hexec, hrest, rfl⟩ := runOps_cons_next.mp h
    exact runOps_cons_next.mpr
      ⟨_, rs', exec_inSurroundingsOf u hs.inited hexec, ih (hs.exec hexec) hrest, rfl⟩

/-- Settles O17: INIT or RESET leaves the two blocks alike but for their surroundings; the operations
that follow complete on the one, and do the same on the other. -/
theorem sameBitsGiveSameResults : Obligations.SameBitsGiveSameResults := by
  intro s s' i i' ops hcfg hi hi' hops
  have hs : (s.cleared.done .nothing).TracksFill :=
    s.tracksFill_cleared.congr rfl rfl rfl rfl rfl
  obtain ⟨t, rs, hrun⟩ := hs.runOps_completes hops
  have hrun' := hs.runOps_inSurroundingsOf s' hrun
  rw [State.cleared_inSurroundingsOf hcfg] at hrun'
  exact ⟨t, t.inSurroundingsOf s', .nothing :: rs,
    runOps_cons_next.mpr ⟨_, rs, exec_of_beginsCycle hi s, hrun, rfl⟩,
    runOps_cons_next.mpr ⟨_, rs, exec_of_beginsCycle hi' s', hrun', rfl⟩,
    t.sameElements_inSurroundingsOf s'⟩

end Sys2Proof.Machine
end

section
/-! One ACCEPT from an initialised block: R69's cases in the raw bit fed, and what a corrected bit
does to the bits stored, the accumulator and `status` (R71 to R78). -/

namespace Sys2Proof.Machine

/-! ### The four paths of ACCEPT, in the raw bit -/

section AcceptBit
variable {s : State} {b : Bit} (hs : s.inited = true)
include hs

theorem exec_accept_of_full (hfull : s.status = .full) :
    exec (.accept b.toNat) s = .next (s.done .nothing) :=
  execAccept_of_full b.isLt hs hfull

variable (hfull : s.status ≠ .full)
include hfull

theorem exec_accept_of_empty_slot (hv : s.pairValid = false) :
    exec (.accept b.toNat) s = .next ((s.holdBit b).done .nothing) := by
  have h := execAccept_of_empty_slot b.isLt hs hfull hv
  rwa [BitVec.ofNat_toNat, BitVec.setWidth_eq] at h

theorem exec_accept_of_pair_eq (hv : s.pairValid = true) (heq : s.pairBit = b) :
    exec (.accept b.toNat) s = .next (s.emptySlot.done .nothing) :=
  execAccept_of_pair_eq b.isLt hs hfull hv (by simpa using heq)

theorem exec_accept_of_pair_ne (hv : s.pairValid = true) (hne : s.pairBit ≠ b) :
    exec (.accept b.toNat) s = s.emptySlot.append s.pairBit :=
  execAccept_of_pair_ne b.isLt hs hfull hv (by simpa using hne)

end AcceptBit

/-! ### A corrected bit -/

theorem cnt_succ (c : BitVec 3) : BitVec.ofNat 3 (c.toNat + 1) = c + 1#3 := by
  simp [BitVec.ofNat_add]

/-- Below `cnt = 7` the accumulator takes the bit (R76). -/
theorem State.append_of_lt {s : State} (e : Bit) (h : s.cnt.toNat < 7) :
    s.append e = .next
      { s with
        acc := appendTo s.acc e s.cnt, cnt := s.cnt + 1#3, status := .filling,
        response := .nothing } := by
  rw [← cnt_succ]
  exact State.append_eq_next.mpr (.inl ⟨h, rfl⟩)

/-- At `cnt = 7` the byte the bit completes is committed, where the buffer has room (R77). -/
theorem State.append_of_eq_seven {s : State} (e : Bit) (h : s.cnt.toNat = 7)
    (hroom : s.fillIndex < s.cfg.capacity) :
    s.append e = .next
      { s with
        buf := s.buf.write s.fillIndex (appendTo s.acc e s.cnt), fillIndex := s.fillIndex + 1,
        acc := 0x00#8, cnt := 0#3, status := statusAfterCommit s.cfg (s.fillIndex + 1),
        response := .nothing } :=
  State.append_eq_next.mpr (.inr ⟨h, State.commit_eq_next.mpr ⟨hroom, rfl⟩⟩)

/-- Position `cnt` of the partial byte is still free (R23(b)), so it takes the bit as it is. -/
theorem getLsbD_appendTo_same {acc : Byte} {cnt : BitVec 3} (e : Bit)
    (h : acc.toNat < 2 ^ cnt.toNat) : (appendTo acc e cnt).getLsbD cnt.toNat = e.getLsbD 0 := by
  have hfree : acc.getLsbD cnt.toNat = false := Nat.testBit_lt_two_pow h
  simp [getLsbD_appendTo, hfree]

theorem getLsbD_appendTo_other {j : Nat} {cnt : BitVec 3} (acc : Byte) (e : Bit)
    (h : j ≠ cnt.toNat) : (appendTo acc e cnt).getLsbD j = acc.getLsbD j := by
  simp [getLsbD_appendTo, h]

theorem State.append_keeps_slot {e : Bit} {s t : State} (h : s.append e = .next t) :
    t.pairValid = s.pairValid ∧ t.pairBit = s.pairBit := by
  obtain ⟨-, rfl⟩ | ⟨-, hcommit⟩ := State.append_eq_next.mp h
  · exact ⟨rfl, rfl⟩
  · obtain ⟨-, rfl⟩ := State.commit_eq_next.mp hcommit
    exact ⟨rfl, rfl⟩

theorem State.append_keeps_inited {e : Bit} {s t : State} (h : s.append e = .next t) :
    t.inited = s.inited := by
  obtain ⟨-, rfl⟩ | ⟨-, hcommit⟩ := State.append_eq_next.mp h
  · rfl
  · obtain ⟨-, rfl⟩ := State.commit_eq_next.mp hcommit
    rfl

/-- A corrected bit moves the cursor by one, also where it carries into `fill_index` (R24). -/
theorem State.append_bitCursor {e : Bit} {s t : State} (h : s.append e = .next t) :
    t.bitCursor = s.bitCursor + 1 := by
  obtain ⟨hcnt, rfl⟩ | ⟨hcnt, hcommit⟩ := State.append_eq_next.mp h
  · have hnext : (BitVec.ofNat 3 (s.cnt.toNat + 1)).toNat = s.cnt.toNat + 1 := by
      rw [BitVec.toNat_ofNat]
      omega
    simp only [State.bitCursor, hnext]
    omega
  · obtain ⟨-, rfl⟩ := State.commit_eq_next.mp hcommit
    simp only [State.bitCursor, hcnt, BitVec.toNat_ofNat]
    omega

/-- The bits stored up to the old cursor: those of the byte being filled are the appended byte's,
whether it stays in the accumulator or is committed, and the others are as before. -/
theorem State.append_storedBit {e : Bit} {s t : State} (hwf : s.buf.wf)
    (h : s.append e = .next t) {n : Nat} (hn : n ≤ s.bitCursor) :
    t.storedBit n = if n / 8 = s.fillIndex then (appendTo s.acc e s.cnt).getLsbD (n % 8)
      else s.storedBit n := by
  have hc := s.cnt.isLt
  have hbyte : n / 8 ≤ s.fillIndex := by
    unfold State.bitCursor at hn
    omega
  obtain ⟨-, rfl⟩ | ⟨-, hcommit⟩ := State.append_eq_next.mp h
  · by_cases heq : n / 8 = s.fillIndex
    · simp [State.storedBit, heq]
    · have hlt : n / 8 < s.fillIndex := by omega
      simp [State.storedBit, heq, hlt]
  · obtain ⟨-, rfl⟩ := State.commit_eq_next.mp hcommit
    by_cases heq : n / 8 = s.fillIndex
    · simp [State.storedBit, heq, Memory.read_write_same hwf]
    · have hlt : n / 8 < s.fillIndex := by omega
      simp [State.storedBit, heq, hlt, Nat.lt_succ_of_lt hlt, Memory.read_write_other hwf]

/-- Either way of storing a bit writes the `status` that goes with the new `fill_index` (R78). -/
theorem State.append_status {e : Bit} {s t : State} (hroom : s.fillIndex < s.cfg.capacity)
    (h : s.append e = .next t) : t.status = statusAfterCommit s.cfg t.fillIndex := by
  obtain ⟨-, rfl⟩ | ⟨-, hcommit⟩ := State.append_eq_next.mp h
  · exact (if_neg hroom.ne).symm
  · obtain ⟨-, rfl⟩ := State.commit_eq_next.mp hcommit
    rfl

/-! ### Ready blocks -/

theorem State.Ready.settled {s : State} (hs : s.Ready) : s.Settled := hs.inv.settled hs.inited

/-- A ready block that is not Full has room for a byte (R77). -/
theorem State.Ready.fill_lt {s : State} (hs : s.Ready) (hfull : s.status ≠ .full) :
    s.fillIndex < s.cfg.capacity :=
  Nat.lt_of_le_of_ne hs.settled.fill_le fun heq => hfull (hs.settled.full_iff.mpr heq)

/-- On a ready block a differing pair has its first bit appended, and ACCEPT completes (R75). -/
theorem State.Ready.accept_emits {s : State} {b : Bit} (hs : s.Ready) (hfull : s.status ≠ .full)
    (hv : s.pairValid = true) (hne : s.pairBit ≠ b) :
    ∃ t, exec (.accept b.toNat) s = .next t ∧ s.emptySlot.append s.pairBit = .next t := by
  obtain ⟨t, happend⟩ := s.emptySlot.append_completes s.pairBit (hs.fill_lt hfull)
  exact ⟨t, (exec_accept_of_pair_ne hs.inited hfull hv hne).trans happend, happend⟩

/-! ### Drop, hold, discard -/

/-- Settles O20: the Full check comes before the slot is looked at, and R23(d) keeps the slot
empty. -/
theorem fullDropsRawBit : Obligations.FullDropsRawBit := by
  refine ⟨fun s b hs hfull => exec_accept_of_full hs hfull, fun s hs hfull => ?_⟩
  obtain ⟨-, -, hv, hp⟩ := hs.settled.full_clear hfull
  exact ⟨hv, hp⟩

/-- Settles O21: the slot's path of ACCEPT only holds the bit. -/
theorem firstBitOfPairWaits : Obligations.FirstBitOfPairWaits :=
  fun _ _ hs hfull hv => exec_accept_of_empty_slot hs hfull hv

/-- Settles O23: an equal pair only empties the slot, and a slot emptied after holding the first bit
is, by R23(c), as it was. -/
theorem equalPairIsDiscarded : Obligations.EqualPairIsDiscarded := by
  refine ⟨fun s b hs hfull hv heq => exec_accept_of_pair_eq hs hfull hv heq,
    fun s b hs hfull hv => ?_⟩
  have hfirst := exec_accept_of_empty_slot (b := b) hs.inited hfull hv
  have hsecond := exec_accept_of_pair_eq (s := (s.holdBit b).done .nothing) (b := b)
    hs.inited hfull rfl rfl
  exact ⟨_, _, runOps_cons_next.mpr ⟨_, _, hfirst,
      runOps_cons_next.mpr ⟨_, _, hsecond, rfl, rfl⟩, rfl⟩,
    rfl, fun _ => rfl, rfl, rfl, rfl, hv.symm, (hs.settled.slot_clear hv).symm, rfl, rfl⟩

/-! ### The six cases -/

/-- Settles O18: R69's cases are the four paths of ACCEPT, the last of them split by whether the
corrected bit completes a byte and whether that byte is the last. -/
theorem acceptSixCases : Obligations.AcceptSixCases := by
  intro s b hs
  refine ⟨exec_accept_of_full hs.inited, exec_accept_of_empty_slot hs.inited,
    exec_accept_of_pair_eq hs.inited, fun hfull hv hne hcnt => ?_,
    fun hfull hv hne hcnt hfill => ?_, fun hfull hv hne hcnt hfill => ?_⟩
  · rw [exec_accept_of_pair_ne hs.inited hfull hv hne]
    exact s.emptySlot.append_of_lt s.pairBit hcnt
  all_goals
    rw [exec_accept_of_pair_ne hs.inited hfull hv hne,
      s.emptySlot.append_of_eq_seven s.pairBit hcnt (hs.fill_lt hfull)]
  · simp [State.emptySlot, statusAfterCommit, appendTo, placeBit, hcnt, hfill.ne]
  · simp [State.emptySlot, statusAfterCommit, appendTo, placeBit, hcnt, hfill]

/-! ### What a differing pair stores -/

theorem eq_not_of_ne : ∀ {p b : Bit}, p ≠ b → p = ~~~b := by decide

/-- Settles O24: the append of the pair's first bit fills the free position at the cursor and
disturbs none below it; the paths that append nothing leave every stored bit. -/
theorem differingPairEmitsFirstBit : Obligations.DifferingPairEmitsFirstBit := by
  refine ⟨fun s b hs hfull hv hne => ?_, fun s b hs hfull hpair => ?_⟩
  · have hc := s.cnt.isLt
    have hdiv : s.bitCursor / 8 = s.fillIndex := by unfold State.bitCursor; omega
    have hmod : s.bitCursor % 8 = s.cnt.toNat := by unfold State.bitCursor; omega
    obtain ⟨t, hexec, happend⟩ := hs.accept_emits hfull hv hne
    obtain ⟨htv, htp⟩ := State.append_keeps_slot happend
    have hstored : ∀ n, n ≤ s.bitCursor → t.storedBit n = if n / 8 = s.fillIndex
        then (appendTo s.acc s.pairBit s.cnt).getLsbD (n % 8) else s.storedBit n :=
      fun n hn => State.append_storedBit (s := s.emptySlot) hs.inv.buf_wf happend hn
    refine ⟨t, hexec, htv, htp, State.append_bitCursor (s := s.emptySlot) happend, ?_,
      eq_not_of_ne hne, fun n hn => ?_⟩
    · rw [hstored _ le_rfl, if_pos hdiv, hmod]
      exact getLsbD_appendTo_same _ hs.settled.acc_lt
    · rw [hstored n hn.le]
      by_cases hlast : n / 8 = s.fillIndex
      · have hne : n % 8 ≠ s.cnt.toNat := by omega
        rw [if_pos hlast, getLsbD_appendTo_other _ _ hne, State.storedBit,
          if_neg (by omega)]
      · rw [if_neg hlast]
  · by_cases hv : s.pairValid = true
    · exact ⟨_, exec_accept_of_pair_eq hs.inited hfull hv (hpair hv), rfl, fun _ => rfl⟩
    · exact ⟨_, exec_accept_of_empty_slot hs.inited hfull (Bool.eq_false_of_not_eq_true hv), rfl,
        fun _ => rfl⟩

/-- Settles O25: the byte that takes the bit is the same below `cnt = 7`, where it stays in the
accumulator, and at 7, where it is read back from the buffer. -/
theorem correctedBitGoesToPositionCnt : Obligations.CorrectedBitGoesToPositionCnt := by
  intro s b hs hfull hv hne
  have hc := s.cnt.isLt
  have hsame := getLsbD_appendTo_same s.pairBit hs.settled.acc_lt
  have hother : ∀ j, j ≠ s.cnt.toNat →
      (appendTo s.acc s.pairBit s.cnt).getLsbD j = s.acc.getLsbD j :=
    fun _ hj => getLsbD_appendTo_other _ _ hj
  by_cases hcnt : s.cnt.toNat < 7
  · have happend := s.emptySlot.append_of_lt s.pairBit hcnt
    refine ⟨_, (exec_accept_of_pair_ne hs.inited hfull hv hne).trans happend,
      fun _ => ⟨rfl, ?_, hsame, hother⟩, fun h => absurd h hcnt.ne⟩
    show (s.cnt + 1#3).toNat = s.cnt.toNat + 1
    bv_omega
  · have h7 : s.cnt.toNat = 7 := by omega
    have happend := s.emptySlot.append_of_eq_seven s.pairBit h7 (hs.fill_lt hfull)
    refine ⟨_, (exec_accept_of_pair_ne hs.inited hfull hv hne).trans happend,
      fun h => absurd h hcnt, fun _ => ?_⟩
    have hread := Memory.read_write_same hs.inv.buf_wf s.fillIndex
      (appendTo s.acc s.pairBit s.cnt)
    refine ⟨hread, ?_, fun j hj => ?_⟩
    · exact (congrArg (·.getLsbD 7) hread).trans (h7 ▸ hsame)
    · exact (congrArg (·.getLsbD j) hread).trans (hother j (by omega))

/-- Settles O26: at `cnt = 7` the append is a commit at `fill_index`, and its byte is the appended
one. -/
theorem eighthBitCommitsByte : Obligations.EighthBitCommitsByte := by
  intro s b hs hfull hv hne hcnt
  have hroom := hs.fill_lt hfull
  have h7 : s.cnt.toNat = 7 := by rw [hcnt]; rfl
  have happend := s.emptySlot.append_of_eq_seven s.pairBit h7 hroom
  have hread := Memory.read_write_same hs.inv.buf_wf s.fillIndex (appendTo s.acc s.pairBit s.cnt)
  have hsame := getLsbD_appendTo_same s.pairBit hs.settled.acc_lt
  rw [h7] at hsame
  refine ⟨hroom, _, (exec_accept_of_pair_ne hs.inited hfull hv hne).trans happend, ?_,
    fun k _ => ?_, fun j hj => Memory.read_write_other hs.inv.buf_wf _ hj, rfl, rfl, rfl⟩
  · exact hread.trans (by rw [appendTo, placeBit, h7])
  · refine (congrArg (·.getLsbD k) hread).trans ?_
    by_cases hk : k = 7
    · rw [if_pos hk, hk]
      exact hsame
    · rw [if_neg hk]
      exact getLsbD_appendTo_other _ _ (h7 ▸ hk)

/-- Settles O27: only the path that appends writes `status`, and what it writes is the value that
goes with `fill_index`, never Empty. -/
theorem acceptWritesStatusTwoWays : Obligations.AcceptWritesStatusTwoWays := by
  intro s b hs
  by_cases hfull : s.status = .full
  · exact ⟨_, exec_accept_of_full hs.inited hfull, fun h => absurd hfull h, fun _ => rfl, id⟩
  by_cases hv : s.pairValid = true
  · by_cases heq : s.pairBit = b
    · exact ⟨_, exec_accept_of_pair_eq hs.inited hfull hv heq, fun _ _ h => absurd heq h,
        fun _ => rfl, id⟩
    · obtain ⟨t, hexec, happend⟩ := hs.accept_emits hfull hv heq
      have hstatus : t.status = if t.fillIndex = s.cfg.capacity then .full else .filling :=
        State.append_status (s := s.emptySlot) (hs.fill_lt hfull) happend
      refine ⟨t, hexec, fun _ _ _ => hstatus, by simp [hfull, hv, heq], fun hempty => ?_⟩
      rw [hempty] at hstatus
      split at hstatus <;> cases hstatus
  · have hempty := Bool.eq_false_of_not_eq_true hv
    exact ⟨_, exec_accept_of_empty_slot hs.inited hfull hempty, fun _ h => absurd h hv,
      fun _ => rfl, id⟩

end Sys2Proof.Machine
end

section
/-! Streams of raw bits fed to one block: how they fall into pairs (R73), how many corrected bits
they give (R82), and what they make of `status` (R83 to R85). -/

namespace Sys2Proof.Machine

/-! ### Feeding -/

@[simp] theorem feed_cons (b : Bit) (r : List Bit) :
    feed (b :: r) = .accept b.toNat :: feed r := rfl

/-- FEED issues ACCEPTs of raw bits only (R58). -/
theorem withinCycle_feed (r : List Bit) : withinCycle (feed r) = true := by
  induction r with
  | nil => rfl
  | cons b r ih =>
    rw [feed_cons, withinCycle_cons]
    exact ⟨Instr.wellFormed_accept.mpr b.isLt, rfl, ih⟩

@[simp] theorem rawBits_feed (r : List Bit) : rawBits (feed r) = r := by
  induction r with
  | nil => rfl
  | cons b r ih => simp [rawBits, ih]

/-- From any state, INIT or RESET and then raw bits complete, and the block has collected them. -/
theorem runOps_feed_collected {i : Instr} (hi : beginsCycle i = true) (r : List Bit) (s : State) :
    ∃ t rs p, runOps (i :: feed r) s = .next (t, rs) ∧ t.cfg = s.cfg ∧ t.Collected r p := by
  have hbegin : (s.cleared.done .nothing).TracksFill :=
    s.tracksFill_cleared.congr rfl rfl rfl rfl rfl
  obtain ⟨t, rs, hfeed⟩ := hbegin.runOps_completes (withinCycle_feed r)
  have hrun : runOps (i :: feed r) s = .next (t, .nothing :: rs) :=
    runOps_cons_next.mpr ⟨_, rs, exec_of_beginsCycle hi s, hfeed, rfl⟩
  obtain ⟨p, hcollected⟩ := collected_of_runOps hi (withinCycle_feed r) hrun
  rw [rawBits_feed] at hcollected
  exact ⟨t, _, p, hrun, runOps_keeps_cfg hrun, hcollected⟩

/-- One operation more after a sequence that completes. -/
theorem runOps_concat {ops : List Instr} {i : Instr} {s t u : State} {rs : List Response}
    (h : runOps ops s = .next (t, rs)) (hi : exec i t = .next u) :
    runOps (ops ++ [i]) s = .next (u, rs ++ [u.response]) :=
  runOps_append_next.mpr ⟨t, rs, _, h, runOps_cons_next.mpr ⟨u, [], hi, rfl, rfl⟩, rfl⟩

/-- Settles O42: on a Full block a sequence of ACCEPTs changes the result only. -/
theorem fullIsIdempotent : Obligations.FullIsIdempotent := by
  intro s r hs hfull
  obtain ⟨x, rs, hrun⟩ := runOps_of_full (withinCycle_feed r) hs hfull
  exact ⟨_, rs, hrun, rfl⟩

/-! ### `status` and the cursor -/

/-- Full says that the cursor is at the end of the buffer (R24). -/
theorem State.TracksFill.full_iff_bitCursor {s : State} (hs : s.TracksFill) :
    s.status = .full ↔ 8 * s.cfg.capacity ≤ s.bitCursor := by
  have hc := s.cnt.isLt
  have hfill := hs.fill_le
  rw [hs.status_eq, statusFor_eq_full_iff, State.bitCursor]
  omega

/-- Empty says that no corrected bit is stored (R22). -/
theorem State.TracksFill.empty_iff_bitCursor {s : State} (hs : s.TracksFill) :
    s.status = .empty ↔ s.bitCursor = 0 := by
  rw [hs.status_eq, statusFor_eq_empty_iff, State.bitCursor]
  constructor
  · rintro ⟨hf, hc⟩
    simp [hf, hc]
  · intro h
    exact ⟨by omega, BitVec.eq_of_toNat_eq (show s.cnt.toNat = 0 by omega)⟩

/-- Filling says that some corrected bit is stored and there is room for another (R22). -/
theorem State.TracksFill.filling_iff_bitCursor {s : State} (hs : s.TracksFill) :
    s.status = .filling ↔ s.bitCursor ≠ 0 ∧ s.bitCursor < 8 * s.cfg.capacity := by
  have hempty := hs.empty_iff_bitCursor
  have hfull := hs.full_iff_bitCursor
  have hpos := s.cfg.capacity_pos
  cases hst : s.status with
  | empty => simp [hempty.mp hst]
  | filling => simp_all
  | full => simp [hfull.mp hst]

/-! ### Counting corrected bits -/

theorem length_correctedBits (r : List Bit) : (correctedBits r).length = (differing r).length :=
  List.length_map _

theorem correctedBits_eq_nil_iff {r : List Bit} : correctedBits r = [] ↔ differing r = [] :=
  List.map_eq_nil_iff

theorem length_pairsOf (r : List Bit) : (pairsOf r).length = r.length / 2 := by
  induction r using pairsOf.induct with
  | case1 a b rest ih =>
    simp only [pairsOf, List.length_cons, ih]
    omega
  | case2 a => simp [pairsOf]
  | case3 => simp [pairsOf]

/-- At most one corrected bit for two raw bits. -/
theorem length_correctedBits_le (r : List Bit) : (correctedBits r).length ≤ r.length / 2 := by
  rw [length_correctedBits, ← length_pairsOf]
  exact List.length_filter_le _ _

/-- A stream's first pair gives its corrected bits before the rest (R73). -/
theorem correctedBits_cons_cons (a b : Bit) (rest : List Bit) :
    correctedBits (a :: b :: rest) = correctedBits [a, b] ++ correctedBits rest :=
  correctedBits_append (p := [a, b]) (by simp) rest

/-- One raw bit more completes at most one pair more. -/
theorem length_correctedBits_concat_le (r : List Bit) (b : Bit) :
    (correctedBits (r ++ [b])).length ≤ (correctedBits r).length + 1 := by
  induction r using pairsOf.induct with
  | case1 a c rest ih =>
    rw [List.cons_append, List.cons_append, correctedBits_cons_cons a c (rest ++ [b]),
      correctedBits_cons_cons a c rest, List.length_append, List.length_append]
    omega
  | case2 a => exact (length_correctedBits_le [a, b]).trans (by simp)
  | case3 => exact Nat.zero_le _

/-- A waiting raw bit has given no corrected bit yet. -/
theorem correctedBits_slotBits (s : State) : correctedBits s.slotBits = [] := by
  unfold State.slotBits
  split <;> rfl

/-- No block stores more than the corrected bits of the raw bits fed to it. -/
theorem State.Collected.bitCursor_le {s : State} {r p : List Bit} (hs : s.Collected r p) :
    s.bitCursor ≤ (correctedBits r).length := by
  obtain ⟨q, rfl⟩ := hs.isPrefix
  rw [← hs.stores.length_eq, correctedBits_append hs.whole_pairs, List.length_append]
  exact Nat.le_add_right _ _

/-- A block that is not Full stores all of them. -/
theorem State.Collected.bitCursor_eq {s : State} {r p : List Bit} (hs : s.Collected r p)
    (hfull : s.status ≠ .full) : s.bitCursor = (correctedBits r).length := by
  rw [hs.rest_waits hfull, correctedBits_append hs.whole_pairs, correctedBits_slotBits,
    List.append_nil, hs.stores.length_eq]

/-- So does a block that became Full with the last raw bit: those before it leave room, so the pairs
that fill the buffer are all of the raw bits. -/
theorem State.Collected.bitCursor_eq_of_room {s : State} {r p : List Bit} {b : Bit}
    (hs : s.Collected (r ++ [b]) p) (hroom : (correctedBits r).length < 8 * s.cfg.capacity) :
    s.bitCursor = (correctedBits (r ++ [b])).length := by
  by_cases hfull : s.status = .full
  · have hstored := hs.tracks.full_iff_bitCursor.mp hfull
    obtain rfl | ⟨q, hq⟩ := List.prefix_concat_iff.mp hs.isPrefix
    · exact hs.stores.length_eq.symm
    · have hmore : (correctedBits r).length = s.bitCursor + (correctedBits q).length := by
        rw [← hq, correctedBits_append hs.whole_pairs, List.length_append, hs.stores.length_eq]
      omega
  · exact hs.bitCursor_eq hfull

/-- Settles O45: unless it is empty the stream has a last raw bit, the block is not Full before it,
and so the corrected bits of all pairs are stored. -/
theorem correctedBitsCountDifferingPairs : Obligations.CorrectedBitsCountDifferingPairs := by
  intro s i r hi hroom
  obtain ⟨t, rs, p, hrun, hcfg, ht⟩ := runOps_feed_collected hi r s
  refine ⟨t, rs, hrun, ?_⟩
  rw [← length_correctedBits]
  obtain rfl | ⟨r, b, rfl⟩ := List.eq_nil_or_concat' r
  · exact Nat.le_zero.mp ht.bitCursor_le
  · obtain ⟨u, rs', p', hrun', hcfg', hu⟩ := runOps_feed_collected hi r s
    have hnot : u.status ≠ .full := hroom r.length u rs' (by simp) (by simpa using hrun')
    have hlt := mt hu.tracks.full_iff_bitCursor.mpr hnot
    rw [hu.bitCursor_eq hnot, hcfg', ← hcfg] at hlt
    exact ht.bitCursor_eq_of_room (Nat.lt_of_not_le hlt)

/-! ### Pairing and `status` along a stream -/

/-- Settles O22: the second bit of a pair empties the slot on both paths it can take, so the next
bit is held; along a stream the slot holds what is left over from a whole number of pairs. -/
theorem pairsDoNotOverlap : Obligations.PairsDoNotOverlap := by
  refine ⟨fun s b hs hfull hv => ?_, fun s i r hi => ?_⟩
  · have hslot : ∃ t, exec (.accept b.toNat) s = .next t ∧ t.inited = true ∧
        t.pairValid = false ∧ t.pairBit = 0#1 := by
      by_cases heq : s.pairBit = b
      · exact ⟨_, exec_accept_of_pair_eq hs.inited hfull hv heq, hs.inited, rfl, rfl⟩
      · obtain ⟨t, hexec, happend⟩ := hs.accept_emits hfull hv heq
        obtain ⟨htv, htp⟩ := State.append_keeps_slot happend
        exact ⟨t, hexec, (State.append_keeps_inited happend).trans hs.inited, htv, htp⟩
    obtain ⟨t, hexec, hinit, htv, htp⟩ := hslot
    exact ⟨t, hexec, htv, htp, fun hnot c =>
      ⟨_, exec_accept_of_empty_slot hinit hnot htv, rfl, rfl⟩⟩
  · obtain ⟨t, rs, p, hrun, -, ht⟩ := runOps_feed_collected hi r s
    refine ⟨t, rs, hrun, fun hnot => ?_⟩
    have hr := ht.rest_waits hnot
    have hp := ht.whole_pairs
    cases hv : t.pairValid with
    | false =>
      rw [State.slotBits_of_empty hv, List.append_nil] at hr
      subst hr
      exact ⟨fun _ => rfl, fun hodd => by omega⟩
    | true =>
      rw [State.slotBits_of_valid hv] at hr
      subst hr
      simp only [List.length_append, List.length_singleton]
      exact ⟨fun heven => by omega, fun _ => by simp⟩

/-- Settles O46: STATUS returns the stored `status`, which the cursor gives; no differing pair leaves
the cursor at 0, and the raw bit that completes the first one puts it at 1, which is not the end of
the buffer. -/
theorem emptyUntilFirstCorrectedBit : Obligations.EmptyUntilFirstCorrectedBit := by
  refine ⟨fun s i r hi hnone => ?_, fun s i r b hi hnone hsome => ?_⟩
  · obtain ⟨t, rs, p, hrun, -, ht⟩ := runOps_feed_collected hi r s
    have hzero : (correctedBits r).length = 0 := by rw [length_correctedBits, hnone]; rfl
    have hempty := ht.tracks.empty_iff_bitCursor.mpr (Nat.le_zero.mp (hzero ▸ ht.bitCursor_le))
    exact ⟨_, _, runOps_concat hrun (exec_status_of_inited ht.tracks.inited),
      congrArg Response.status hempty⟩
  · obtain ⟨t, rs, p, hrun, -, ht⟩ := runOps_feed_collected hi (r ++ [b]) s
    have hpos := t.cfg.capacity_pos
    have hzero : (correctedBits r).length = 0 := by rw [length_correctedBits, hnone]; rfl
    have hcursor := ht.bitCursor_eq_of_room (by omega)
    have hone := length_correctedBits_concat_le r b
    have hne : (correctedBits (r ++ [b])).length ≠ 0 := fun h =>
      hsome (correctedBits_eq_nil_iff.mp (List.eq_nil_of_length_eq_zero h))
    have hfilling := ht.tracks.filling_iff_bitCursor.mpr ⟨by omega, by omega⟩
    exact ⟨_, _, runOps_concat hrun (exec_status_of_inited ht.tracks.inited),
      congrArg Response.status hfilling⟩

/-! ### Streams of differing pairs only -/

/-- Where every pair of a stream differs, every pair of a whole number of pairs at its start
does. -/
theorem length_correctedBits_of_prefix {p r : List Bit}
    (hr : 2 * (correctedBits r).length = r.length) (hp : p.length % 2 = 0) (h : p <+: r) :
    2 * (correctedBits p).length = p.length := by
  obtain ⟨q, rfl⟩ := h
  have hle := length_correctedBits_le p
  have hle' := length_correctedBits_le q
  simp only [correctedBits_append hp, List.length_append] at hr
  omega

/-- There the corrected bits are the raw bits at the even places. -/
theorem correctedBits_getD {r : List Bit} (hr : 2 * (correctedBits r).length = r.length) (n : Nat) :
    (correctedBits r).getD n 0#1 = r.getD (2 * n) 0#1 := by
  induction r using pairsOf.induct generalizing n with
  | case1 a b rest ih =>
    have hle := length_correctedBits_le rest
    have hne : a ≠ b := by
      rintro rfl
      rw [correctedBits_cons_cons a a rest, correctedBits_pair_eq, List.nil_append,
        List.length_cons, List.length_cons] at hr
      omega
    rw [correctedBits_cons_cons a b rest, correctedBits_pair_ne hne] at hr ⊢
    simp only [List.length_append, List.length_cons, List.length_nil] at hr
    cases n with
    | zero => rfl
    | succ n => exact ih (by omega) n
  | case2 a => cases hr
  | case3 => rfl

/-- Packed bits as a sum of shifted bits (R84). -/
theorem packBits_eq_sum (l : List Bit) :
    packBits l = ((List.range l.length).map fun j => (l.getD j 0#1).toNat <<< j).sum := by
  induction l with
  | nil => rfl
  | cons e l ih =>
    have hdouble : ∀ m j : Nat, m <<< (j + 1) = 2 * m <<< j := fun m j => by
      rw [Nat.shiftLeft_succ]
    rw [packBits, ih, List.length_cons, List.range_succ_eq_map, List.map_cons, List.sum_cons,
      List.map_map, ← List.sum_map_mul_left]
    simp [Function.comp_def, hdouble]

/-- A complete byte of such a stream, in the raw bits it is made of (R84). -/
theorem packedByte_eq_sum {r : List Bit} (hr : 2 * (correctedBits r).length = r.length) {k : Nat}
    (hk : 16 * (k + 1) ≤ r.length) :
    packedByte (correctedBits r) k = BitVec.ofNat 8
      ((List.range 8).map fun j => (r.getD (16 * k + 2 * j) 0#1).toNat <<< j).sum := by
  have hlen : (((correctedBits r).drop (8 * k)).take 8).length = 8 := by
    rw [List.length_take, List.length_drop]
    omega
  rw [packedByte, packBits_eq_sum, hlen]
  congr 2
  refine List.map_congr_left fun j hj => ?_
  have hj8 : j < 8 := List.mem_range.mp hj
  have hplace : 2 * (8 * k + j) = 16 * k + 2 * j := by ring
  rw [← hplace, ← correctedBits_getD hr]
  simp [List.getD_eq_getElem?_getD, hj8]

/-- The cursor counts the pairs of such a stream up to its `k`-th raw bit, until the buffer is
full. -/
theorem State.Collected.bitCursor_eq_half {s : State} {r p : List Bit} {k : Nat}
    (hr : r.length = 16 * s.cfg.capacity) (hall : 2 * (correctedBits r).length = r.length)
    (hk : k ≤ r.length) (hs : s.Collected (r.take k) p) : s.bitCursor = k / 2 := by
  have hlen : (r.take k).length = k := List.length_take_of_le hk
  have hpairs := length_correctedBits_of_prefix hall hs.whole_pairs
    (hs.isPrefix.trans (List.take_prefix k r))
  have hstored := hs.stores.length_eq
  have hle := hs.isPrefix.length_le
  by_cases hfull : s.status = .full
  · have := hs.tracks.full_iff_bitCursor.mp hfull
    omega
  · have hslot : s.slotBits.length ≤ 1 := by
      unfold State.slotBits
      split <;> simp
    have hrest := congrArg List.length (hs.rest_waits hfull)
    have heven := hs.whole_pairs
    rw [List.length_append, hlen] at hrest
    omega

/-- Settles O47: after `k` raw bits the cursor is at `k / 2`, which gives each `status`; the view of
the Full block is the packed stream. -/
theorem fillingTheWholeBuffer : Obligations.FillingTheWholeBuffer := by
  intro s i r hi hlen hdiff
  have hpos := s.cfg.capacity_pos
  rw [← length_correctedBits] at hdiff
  have hall : 2 * (correctedBits r).length = r.length := by omega
  constructor
  · intro k hk
    obtain ⟨t, rs, p, hrun, hcfg, ht⟩ := runOps_feed_collected hi (r.take k) s
    have hcursor := ht.bitCursor_eq_half (hcfg ▸ hlen) hall hk
    refine ⟨t, rs, hrun, fun h1 => ?_, fun h2 hlt => ?_, fun heq => ?_⟩
    · exact ht.tracks.empty_iff_bitCursor.mpr (by omega)
    · exact ht.tracks.filling_iff_bitCursor.mpr ⟨by omega, by rw [hcfg]; omega⟩
    · exact ht.tracks.full_iff_bitCursor.mpr (by rw [hcfg]; omega)
  · obtain ⟨t, rs, p, hrun, hcfg, ht⟩ := runOps_feed_collected hi r s
    have hcursor := State.Collected.bitCursor_eq_half (k := r.length) (hcfg ▸ hlen) hall le_rfl
      (by rwa [List.take_length])
    have hfull := ht.tracks.full_iff_bitCursor.mpr (by rw [hcfg]; omega)
    refine ⟨_, _, t.viewBytes, runOps_concat hrun (exec_buffer_of_inited ht.tracks.inited), rfl,
      ?_, fun k hk => ?_⟩
    · rw [State.viewBytes, Memory.length_bytes, hcfg]
    · rw [ht.viewBytes_of_full hfull (hcfg.symm ▸ hk), packedByte_eq_sum hall (by omega)]

end Sys2Proof.Machine
end

section
/-! STATUS and BUFFER (spec/42_status_buffer.md): a STATUS shows the `status` of its own step and Full
stays for the rest of the cycle (R88); a BUFFER shows committed bytes and zeros (R91) and, like every
operation but INIT and RESET, does not make the block Empty again (R90). -/

namespace Sys2Proof.Machine

/-! ### STATUS -/

/-- No operation but STATUS returns a status, and STATUS returns the one stored at its step (R87,
R88). -/
theorem eq_status_of_response {i : Instr} {s t : State} {st : Status} (hs : s.inited = true)
    (h : exec i s = .next t) (hresponse : t.response = .status st) : st = s.status := by
  by_cases hstatus : i = .status
  · subst hstatus
    rw [exec_status_of_inited hs] at h
    cases h
    exact (Response.status.inj hresponse).symm
  by_cases hbuffer : i = .buffer
  · subst hbuffer
    rw [exec_buffer_of_inited hs] at h
    cases h
    cases hresponse
  · rw [writersReturnNothing s t i hstatus hbuffer h] at hresponse
    cases hresponse

/-- The results returned by a Full block in its cycle: every STATUS says Full (R88). -/
theorem eq_full_of_mem_responses {ops : List Instr} {s t : State} {rs : List Response}
    {st : Status} (hops : withinCycle ops = true) (hs : s.inited = true) (hfull : s.status = .full)
    (h : runOps ops s = .next (t, rs)) (hmem : Response.status st ∈ rs) : st = .full := by
  induction ops generalizing s rs with
  | nil => cases h; cases hmem
  | cons i ops ih =>
    obtain ⟨hwf, hi, hops⟩ := (withinCycle_cons i ops).mp hops
    obtain ⟨r, hdone⟩ := exec_of_full hwf hi hs hfull
    obtain ⟨u, rs', hexec, hrest, rfl⟩ := runOps_cons_next.mp h
    obtain rfl : s.done r = u := Host.Outcome.next.inj (hdone.symm.trans hexec)
    obtain hhead | htail := List.mem_cons.mp hmem
    · exact (eq_status_of_response hs hexec hhead.symm).trans hfull
    · exact ih (s := s.done r) hops hs hfull hrest htail

/-- Settles O31: the operations of a cycle change only the result of a Full block, so the status
stored at each STATUS among them is Full. -/
theorem statusIsSnapshotAndFullPersists : Obligations.StatusIsSnapshotAndFullPersists := by
  refine ⟨fun s t hs h => ?_, fun s ops hs hfull hops => ?_⟩
  · rw [exec_status_of_inited hs] at h
    cases h
    rfl
  · obtain ⟨r, rs, hrun⟩ := runOps_of_full hops hs.inited hfull
    exact ⟨s.done r, rs, hrun, hfull,
      fun _ hmem => eq_full_of_mem_responses hops hs.inited hfull hrun hmem⟩

/-! ### BUFFER -/

/-- BUFFER shows the bytes in the order of their indices (R89). -/
theorem State.viewBytes_getElem? {s : State} {k : Nat} (hk : k < s.cfg.capacity) :
    s.viewBytes[k]? = some (s.buf.read k) := by
  rw [State.viewBytes, List.getElem?_eq_getElem (by simpa using hk), Memory.getElem_bytes]

/-- On a ready block a byte not yet committed shows as 0x00, by R23(e). -/
theorem State.Ready.viewBytes_getElem? {s : State} (hs : s.Ready) {k : Nat}
    (hk : k < s.cfg.capacity) :
    s.viewBytes[k]? = some (if k < s.fillIndex then s.buf.read k else 0x00#8) := by
  rw [State.viewBytes_getElem? hk]
  by_cases hcommitted : k < s.fillIndex
  · rw [if_pos hcommitted]
  · rw [if_neg hcommitted, hs.settled.rest_zero k (Nat.le_of_not_lt hcommitted) hk]

/-- Settles O34: BUFFER returns the view whatever `status` is, and the view is of `buf` only, so the
accumulator has no part in it. -/
theorem prematureReadIsDefined : Obligations.PrematureReadIsDefined := by
  intro s hs _
  exact ⟨s.viewBytes, exec_buffer_of_inited hs.inited, Memory.length_bytes _ _,
    fun _ hk => hs.viewBytes_getElem? hk,
    fun a c => exec_buffer_of_inited (s := { s with acc := a, cnt := c }) hs.inited⟩

/-! ### The way back to Empty -/

/-- A commit writes Full or Filling (R78). -/
theorem State.commit_status_ne_empty {byte : Byte} {s t : State} (h : s.commit byte = .next t) :
    t.status ≠ .empty := by
  obtain ⟨-, rfl⟩ := State.commit_eq_next.mp h
  change statusAfterCommit _ _ ≠ .empty
  unfold statusAfterCommit
  split <;> decide

/-- A corrected bit never leaves the block Empty (R78). -/
theorem State.append_status_ne_empty {e : Bit} {s t : State} (h : s.append e = .next t) :
    t.status ≠ .empty := by
  obtain ⟨-, rfl⟩ | ⟨-, hcommit⟩ := State.append_eq_next.mp h
  · exact Status.noConfusion
  · exact State.commit_status_ne_empty hcommit

/-- ACCEPT leaves `status` as it is, or appends a corrected bit (R78). -/
theorem execAccept_status_ne_empty {b : Nat} {s t : State} (hs : s.status ≠ .empty)
    (h : execAccept b s = .next t) : t.status ≠ .empty := by
  obtain ⟨-, -, ⟨-, rfl⟩ | ⟨-, -, rfl⟩ | ⟨-, -, -, rfl⟩ | ⟨-, -, -, happend⟩⟩ :=
    execAccept_eq_next h
  · exact hs
  · exact hs
  · exact hs
  · exact State.append_status_ne_empty happend

/-- Settles O33: BUFFER writes the result only; of the operations that begin no cycle, the reads keep
`status` and ACCEPT never brings it to Empty. -/
theorem bufferChangesNoState : Obligations.BufferChangesNoState := by
  refine ⟨fun s hs => ⟨_, exec_buffer_of_inited hs, s.sameElements_done _,
    s.sameSurroundings_done _⟩, fun s t i hs h hne hempty => ?_⟩
  cases i with
  | init => rfl
  | reset => rfl
  | accept b => exact absurd hempty (execAccept_status_ne_empty hne h)
  | status =>
    rw [exec_status_of_inited hs] at h
    cases h
    exact absurd hempty hne
  | buffer =>
    rw [exec_buffer_of_inited hs] at h
    cases h
    exact absurd hempty hne

end Sys2Proof.Machine
end

section
/-! The invariant along operations that keep the caller's contracts (R94): on a ready block every
operation keeps R21 to R23 and marks nothing, and a sequence of such operations completes (R93). -/

namespace Sys2Proof.Machine

/-! ### Ready blocks and the cursor -/

/-- `fill_index` fits the `IW` bits of its register (R8). -/
theorem lt_two_pow_indexWidth {cfg : Config} {n : Nat} (h : n ≤ cfg.capacity) :
    n < 2 ^ cfg.indexWidth :=
  Nat.lt_of_le_of_lt h Nat.lt_log2_self

/-- What R23 adds to R21 and R22, and the buffer's form and range, make the block a ready one. -/
theorem State.TracksFill.ready {s : State} (hs : s.TracksFill) (hwf : s.buf.wf)
    (hrange : s.buf.inRange s.cfg.capacity) (hacc : s.acc.toNat < 2 ^ s.cnt.toNat)
    (hslot : s.pairValid = false → s.pairBit = 0#1)
    (hfull : s.status = .full → s.cnt = 0#3 ∧ s.acc = 0x00#8 ∧ s.pairValid = false ∧ s.pairBit = 0#1)
    (hzero : ∀ k, s.fillIndex ≤ k → k < s.cfg.capacity → s.buf.read k = 0x00#8) : s.Ready where
  inited := hs.inited
  inv :=
    { buf_wf := hwf
      buf_inRange := hrange
      fill_lt := lt_two_pow_indexWidth hs.fill_le
      settled := fun _ =>
        { full_iff := by rw [hs.status_eq, statusFor_eq_full_iff]
          empty_iff := by rw [hs.status_eq, statusFor_eq_empty_iff]
          filling_iff := by rw [hs.status_eq, statusFor_eq_filling_iff hs.fill_le]
          fill_le := hs.fill_le
          acc_lt := hacc
          slot_clear := hslot
          full_clear := hfull
          rest_zero := hzero } }

/-- Conversely, R21 and R22 leave one `status` to each cursor. -/
theorem State.Ready.tracksFill {s : State} (hs : s.Ready) : s.TracksFill := by
  refine ⟨hs.inited, hs.settled.fill_le, ?_⟩
  cases hst : s.status with
  | empty => exact (statusFor_eq_empty_iff.mpr (hs.settled.empty_iff.mp hst)).symm
  | filling =>
    exact ((statusFor_eq_filling_iff hs.settled.fill_le).mpr (hs.settled.filling_iff.mp hst)).symm
  | full => exact (statusFor_eq_full_iff.mpr (hs.settled.full_iff.mp hst)).symm

/-! ### The updates of the state keep a block ready -/

theorem State.ready_cleared (s : State) : s.cleared.Ready :=
  s.tracksFill_cleared.ready Memory.nil_wf (Memory.nil_inRange _) Nat.one_pos (fun _ => rfl)
    (fun h => nomatch h) (fun _ _ _ => rfl)

theorem State.Ready.done {s : State} (hs : s.Ready) (r : Response) : (s.done r).Ready := by
  have htracks : (s.done r).TracksFill := hs.tracksFill.congr rfl rfl rfl rfl rfl
  exact htracks.ready hs.inv.buf_wf hs.inv.buf_inRange hs.settled.acc_lt hs.settled.slot_clear
    hs.settled.full_clear hs.settled.rest_zero

/-- A bit waits only in a block that is not Full, so R23(d) says nothing of it. -/
theorem State.Ready.holdBit {s : State} (hs : s.Ready) (hfull : s.status ≠ .full) (b : Bit) :
    (s.holdBit b).Ready := by
  have htracks : (s.holdBit b).TracksFill := hs.tracksFill.congr rfl rfl rfl rfl rfl
  exact htracks.ready hs.inv.buf_wf hs.inv.buf_inRange hs.settled.acc_lt (fun h => nomatch h)
    (fun h => absurd h hfull) hs.settled.rest_zero

theorem State.Ready.emptySlot {s : State} (hs : s.Ready) : s.emptySlot.Ready := by
  have htracks : s.emptySlot.TracksFill := hs.tracksFill.congr rfl rfl rfl rfl rfl
  refine htracks.ready hs.inv.buf_wf hs.inv.buf_inRange hs.settled.acc_lt (fun _ => rfl)
    (fun h => ?_) hs.settled.rest_zero
  obtain ⟨hcnt, hacc, -, -⟩ := hs.settled.full_clear h
  exact ⟨hcnt, hacc, rfl, rfl⟩

/-- A commit writes the one byte the cursor passes, so the bytes from the new cursor on still read
0x00 (R23(e)); the slot is empty, as R23(d) asks where the commit fills the buffer. -/
theorem State.Ready.commit {byte : Byte} {s t : State} (hs : s.Ready) (hv : s.pairValid = false)
    (h : s.commit byte = .next t) : t.Ready := by
  have htracks := hs.tracksFill.commit h
  obtain ⟨hroom, rfl⟩ := State.commit_eq_next.mp h
  refine htracks.ready (Memory.write_wf _ _ hs.inv.buf_wf)
    (Memory.write_inRange _ hs.inv.buf_inRange hroom) Nat.one_pos hs.settled.slot_clear
    (fun _ => ⟨rfl, rfl, hv, hs.settled.slot_clear hv⟩) (fun k hk hcap => ?_)
  change s.fillIndex + 1 ≤ k at hk
  exact (Memory.read_write_other hs.inv.buf_wf byte (by omega)).trans
    (hs.settled.rest_zero k (by omega) hcap)

/-- A bit placed at position `cnt` keeps the partial byte below the next power of two (R23(b)). -/
theorem toNat_appendTo_lt {acc : Byte} {cnt : BitVec 3} (e : Bit) (h : acc.toNat < 2 ^ cnt.toNat) :
    (appendTo acc e cnt).toNat < 2 ^ (cnt.toNat + 1) := by
  have hbit : e.toNat * 2 ^ cnt.toNat ≤ 1 * 2 ^ cnt.toNat :=
    Nat.mul_le_mul_right _ (Nat.le_of_lt_succ e.isLt)
  rw [toNat_appendTo h, Nat.pow_succ]
  omega

theorem State.Ready.append {e : Bit} {s t : State} (hs : s.Ready) (hfull : s.status ≠ .full)
    (hv : s.pairValid = false) (h : s.append e = .next t) : t.Ready := by
  have htracks := hs.tracksFill.append hfull h
  obtain ⟨hcnt, rfl⟩ | ⟨-, hcommit⟩ := State.append_eq_next.mp h
  · have hnext : (BitVec.ofNat 3 (s.cnt.toNat + 1)).toNat = s.cnt.toNat + 1 := by
      rw [BitVec.toNat_ofNat]
      omega
    refine htracks.ready hs.inv.buf_wf hs.inv.buf_inRange ?_ hs.settled.slot_clear
      (fun h => nomatch h) hs.settled.rest_zero
    simpa only [hnext] using toNat_appendTo_lt e hs.settled.acc_lt
  · exact hs.commit hv hcommit

/-! ### Operations keep a block ready -/

/-- ACCEPT in R69's cases (R81): the bit is dropped, held or discarded, or the first of its pair is
appended with the slot already empty. -/
theorem State.Ready.accept {b : Nat} {s t : State} (hs : s.Ready)
    (h : execAccept b s = .next t) : t.Ready := by
  obtain ⟨-, -, ⟨-, rfl⟩ | ⟨hfull, -, rfl⟩ | ⟨-, -, -, rfl⟩ | ⟨hfull, -, -, happend⟩⟩ :=
    execAccept_eq_next h
  · exact hs.done _
  · exact (hs.holdBit hfull _).done _
  · exact hs.emptySlot.done _
  · exact hs.emptySlot.append hfull rfl happend

theorem State.Ready.exec {i : Instr} {s t : State} (h : exec i s = .next t) (hs : s.Ready) :
    t.Ready := by
  cases i with
  | init => cases h; exact s.ready_cleared.done _
  | reset => cases h; exact s.ready_cleared.done _
  | accept b => exact hs.accept h
  | status =>
    rw [exec_status_of_inited hs.inited] at h
    cases h
    exact hs.done _
  | buffer =>
    rw [exec_buffer_of_inited hs.inited] at h
    cases h
    exact hs.done _

/-! ### Operations within the contracts -/

/-- No operation on an initialised block marks a violation: it does the same wherever the block stands,
so it takes over the mark it finds. -/
theorem exec_keeps_violated {i : Instr} {s t : State} (hs : s.inited = true)
    (h : exec i s = .next t) : t.violated = s.violated := by
  have hsame : exec i s = .next (t.inSurroundingsOf s) := exec_inSurroundingsOf s hs h
  have ht : t = t.inSurroundingsOf s := Host.Outcome.next.inj (h.symm.trans hsame)
  rw [ht]
  rfl

@[simp] theorem contractKept_cons (inited : Bool) (i : Instr) (ops : List Instr) :
    contractKept inited (i :: ops) = true ↔
      i.WellFormed ∧ (inited = true ∨ beginsCycle i = true) ∧ contractKept true ops = true := by
  simp [contractKept, and_assoc]

/-- One operation within the contracts: it completes, it leaves the block ready and it marks nothing
(R93). -/
theorem State.Inv.exec_of_contract {i : Instr} {s : State} (hs : s.Inv) (hwf : i.WellFormed)
    (hi : s.inited = true ∨ beginsCycle i = true) :
    ∃ t, exec i s = .next t ∧ t.Ready ∧ t.violated = s.violated := by
  obtain hinited | hbegins := hi
  · have hready : s.Ready := ⟨hinited, hs⟩
    obtain ⟨t, hexec⟩ := hready.tracksFill.exec_completes hwf
    exact ⟨t, hexec, hready.exec hexec, exec_keeps_violated hinited hexec⟩
  · exact ⟨_, exec_of_beginsCycle hbegins s, s.ready_cleared.done _, rfl⟩

theorem State.Inv.runOps_of_contract {ops : List Instr} {s : State} (hs : s.Inv)
    (hops : contractKept s.inited ops = true) :
    ∃ t rs, runOps ops s = .next (t, rs) ∧ t.Inv ∧ t.violated = s.violated ∧
      rs.length = ops.length := by
  induction ops generalizing s with
  | nil => exact ⟨s, [], rfl, hs, rfl, rfl⟩
  | cons i ops ih =>
    obtain ⟨hwf, hi, hops⟩ := (contractKept_cons _ i ops).mp hops
    obtain ⟨u, hexec, hready, hmark⟩ := hs.exec_of_contract hwf hi
    obtain ⟨t, rs, hrest, hinv, hmarks, hlen⟩ := ih hready.inv (hready.inited ▸ hops)
    exact ⟨t, u.response :: rs, runOps_cons_next.mpr ⟨u, rs, hexec, hrest, rfl⟩, hinv,
      hmarks.trans hmark, congrArg Nat.succ hlen⟩

/-- A run that completes is a safe one exactly when it ends unmarked. -/
theorem safeRun_of_runOps {ops : List Instr} {s t : State} {rs : List Response}
    (h : runOps ops s = .next (t, rs)) : safeRun ops s = !t.violated := by
  simp only [safeRun, h]

/-- Settles O38: the first operation within the contracts completes and leaves a ready block, from
which the others do, by induction on the sequence; none of them touches the mark. -/
theorem contractedOperationsSucceed : Obligations.ContractedOperationsSucceed := by
  intro s ops hs hops
  obtain ⟨t, rs, hrun, hinv, hmark, hlen⟩ := hs.runOps_of_contract hops
  refine ⟨t, rs, hrun, hinv, hmark, hlen, fun hunmarked => ?_⟩
  rw [safeRun_of_runOps hrun, hmark, hunmarked]
  rfl

end Sys2Proof.Machine
end

section
/-! Reset and hazards: what a stimulus and a step keep of the block's parameter. -/

namespace Sys2Proof.Machine

/-- A command word has the effect of the operation it decodes to; a reserved word has none (R51). -/
theorem deliverWord_eq_next {w : CommandWord} {s t : State} :
    deliverWord w s = .next t ↔ ∃ i, decode w = .instr i ∧ exec i s = .next t := by
  unfold deliverWord
  cases decode w <;> simp

/-- An operation, by word or by call, the reset input and a power loss all keep the parameter. -/
theorem deliver_keeps_cfg {x : Stimulus} {s t : State} (h : deliver x s = .next t) :
    t.cfg = s.cfg := by
  cases x with
  | word agent w =>
    obtain ⟨i, -, hexec⟩ := deliverWord_eq_next.mp h
    exact (exec_keeps_cfg_input hexec).1
  | call agent i => exact (exec_keeps_cfg_input h).1
  | resetInput lost => cases h; rfl
  | powerLoss => cases h; exact s.restart_cfg

theorem step_keeps_cfg {s t : State} (h : step s = .next t) : t.cfg = s.cfg := by
  unfold step at h
  split at h
  · cases h; rfl
  · next x rest _ => exact (deliver_keeps_cfg h).trans (s.take_cfg rest)

/-- Settles O12: every stimulus a step can take keeps the parameter, and so does every operation of a
sequence. -/
theorem capacityNeverChanges : Obligations.CapacityNeverChanges :=
  ⟨fun _ _ => step_keeps_cfg, fun _ _ _ _ => runOps_keeps_cfg⟩

end Sys2Proof.Machine
end

section
/-! The encoding (spec/30_encoding.md): `decode` inverts `encode` on the well-formed operations, no
other word decodes, and both agree with the opcode table (R48 to R52). -/

namespace Sys2Proof

/-! ### Decoding inverts encoding -/

/-- The words that carry ACCEPT's operation number are the two that its raw bits encode to (R49). -/
theorem encode_accept_of_mask : ∀ w : CommandWord, w &&& 0xE#4 = 0x2#4 →
    encode (.accept (operandField w).toNat) = w := by decide

theorem decode_encode {i : Instr} (hi : i.WellFormed) : decode (encode i) = .instr i := by
  cases i with
  | init => rfl
  | reset => rfl
  | status => rfl
  | buffer => rfl
  | accept b =>
    obtain rfl | rfl : b = 0 ∨ b = 1 := by
      have := Machine.Instr.wellFormed_accept.mp hi
      omega
    · rfl
    · rfl

/-- All the decoder can answer when it answers an operation: one that the word encodes (R52). -/
theorem wellFormed_and_encode_of_decode {w : CommandWord} {i : Instr} (h : decode w = .instr i) :
    i.WellFormed ∧ encode i = w := by
  unfold decode at h
  split at h
  · next hmask =>
    cases h
    exact ⟨Machine.Instr.wellFormed_accept.mpr (operandField w).isLt,
      encode_accept_of_mask w hmask⟩
  split at h
  · subst w; cases h; exact ⟨rfl, rfl⟩
  split at h
  · subst w; cases h; exact ⟨rfl, rfl⟩
  split at h
  · subst w; cases h; exact ⟨rfl, rfl⟩
  split at h
  · subst w; cases h; exact ⟨rfl, rfl⟩
  split at h
  · cases h
  · cases h

/-! ### The opcode table -/

theorem row_selects_encode {i : Instr} (hi : i.WellFormed) :
    ∃ r ∈ opcodeTable, r.mnemonic = i.mnemonic ∧ r.selects (encode i) = true := by
  cases i with
  | init => exact Laws.RowSelects.init hi
  | accept b => exact Laws.RowSelects.accept b hi
  | status => exact Laws.RowSelects.status hi
  | buffer => exact Laws.RowSelects.buffer hi
  | reset => exact Laws.RowSelects.reset hi

theorem OpcodeRow.selects_iff {r : OpcodeRow} {w : CommandWord} :
    r.selects w = true ↔ w &&& r.mask = r.pattern := by
  simp [OpcodeRow.selects]

/-- A row that looks at all four bits selects its pattern only. -/
theorem OpcodeRow.eq_pattern_of_selects {r : OpcodeRow} {w : CommandWord} (hr : r.mask = 0xF#4)
    (h : r.selects w = true) : w = r.pattern := by
  rw [OpcodeRow.selects_iff, hr] at h
  exact (BitVec.and_allOnes (x := w)).symm.trans h

theorem decode_of_row_selects {r : OpcodeRow} {w : CommandWord} (hr : r ∈ opcodeTable)
    (h : r.selects w = true) : ∃ i, decode w = .instr i := by
  obtain rfl | rfl | rfl | rfl | rfl :
      r = ⟨"INIT", 0x0#4, 0xF#4⟩ ∨ r = ⟨"ACCEPT", 0x2#4, 0xE#4⟩ ∨ r = ⟨"STATUS", 0x4#4, 0xF#4⟩ ∨
        r = ⟨"BUFFER", 0x6#4, 0xF#4⟩ ∨ r = ⟨"RESET", 0x8#4, 0xF#4⟩ := by
    simpa [opcodeTable] using hr
  · exact ⟨.init, OpcodeRow.eq_pattern_of_selects rfl h ▸ rfl⟩
  · exact ⟨.accept _, if_pos (OpcodeRow.selects_iff.mp h)⟩
  · exact ⟨.status, OpcodeRow.eq_pattern_of_selects rfl h ▸ rfl⟩
  · exact ⟨.buffer, OpcodeRow.eq_pattern_of_selects rfl h ▸ rfl⟩
  · exact ⟨.reset, OpcodeRow.eq_pattern_of_selects rfl h ▸ rfl⟩

/-- Two rows of the table differ in a bit that both look at. -/
theorem opcodeTable_eq_of_compatible : ∀ r ∈ opcodeTable, ∀ r' ∈ opcodeTable,
    r.pattern &&& r'.mask = r'.pattern &&& r.mask → r = r' := by decide

/-- On the bits that two rows selecting one word both look at, they ask for the same. -/
theorem OpcodeRow.compatible_of_selects {r r' : OpcodeRow} {w : CommandWord}
    (h : r.selects w = true) (h' : r'.selects w = true) :
    r.pattern &&& r'.mask = r'.pattern &&& r.mask := by
  rw [← OpcodeRow.selects_iff.mp h, ← OpcodeRow.selects_iff.mp h', BitVec.and_assoc,
    BitVec.and_assoc, BitVec.and_comm r.mask]

/-- Settles O2: a word that decodes is the encoding of what it decodes to, so its row is that of the
operation; and two rows selecting one word would have to agree where they differ. -/
theorem decodeEncodeAgree : Obligations.DecodeEncodeAgree := by
  refine ⟨fun _ => decode_encode, fun _ _ => wellFormed_and_encode_of_decode, fun w i h => ?_,
    fun _ _ => decode_of_row_selects, fun _ r hr r' hr' h h' =>
      opcodeTable_eq_of_compatible r hr r' hr' (OpcodeRow.compatible_of_selects h h')⟩
  obtain ⟨hi, rfl⟩ := wellFormed_and_encode_of_decode h
  exact row_selects_encode hi

/-- Settles O1: the written-out words are the encodings of the six well-formed operations. -/
theorem writtenWordsDecode : Obligations.WrittenWordsDecode :=
  ⟨decode_encode (i := .init) rfl, decode_encode (i := .accept 0) rfl,
    decode_encode (i := .accept 1) rfl, decode_encode (i := .status) rfl,
    decode_encode (i := .buffer) rfl, decode_encode (i := .reset) rfl⟩

end Sys2Proof
end

section
/-! The step: what stimulus it takes and what that does (R10, R51, R97, R100, R107). -/

namespace Sys2Proof.Machine

theorem step_of_input_nil {s : State} (h : s.input = []) : step s = .next s := by
  simp [step, h]

/-- One step delivers the first stimulus waiting to the state without it (R10). -/
theorem step_of_input_cons {s : State} {x : Stimulus} {rest : List Stimulus}
    (h : s.input = x :: rest) : step s = deliver x (s.take rest) := by
  simp [step, h]

/-- A stimulus put before the others is the one the next step delivers. -/
theorem step_present (x : Stimulus) (s : State) : step (s.present x) = deliver x s := rfl

theorem deliverWord_of_decode {w : CommandWord} {i : Instr} (h : decode w = .instr i) (s : State) :
    deliverWord w s = exec i s := by
  simp [deliverWord, h]

/-- A reserved word is refused by its reason (R51). -/
theorem deliverWord_of_reserved {w : CommandWord} {why : Reserved} (h : decode w = .invalid why)
    (s : State) : deliverWord w s = .refused (.reservedWord w why) := by
  simp [deliverWord, h]

/-! ### The reserved words -/

theorem decode_of_operandBitSet :
    ∀ w ∈ [0x1#4, 0x5#4, 0x7#4, 0x9#4], decode w = .invalid .operandBitSet := by decide

theorem decode_of_unassignedOp :
    ∀ w ∈ [0xA#4, 0xB#4, 0xC#4, 0xD#4, 0xE#4, 0xF#4], decode w = .invalid .unassignedOp := by
  decide

/-- The six words that are not reserved are the encodings of operations (R48). -/
theorem exists_encode_of_mem {w : CommandWord}
    (h : w ∈ [0x0#4, 0x2#4, 0x3#4, 0x4#4, 0x6#4, 0x8#4]) :
    ∃ i : Instr, i.WellFormed ∧ encode i = w := by
  obtain rfl | rfl | rfl | rfl | rfl | rfl : w = 0x0#4 ∨ w = 0x2#4 ∨ w = 0x3#4 ∨ w = 0x4#4 ∨
      w = 0x6#4 ∨ w = 0x8#4 := by simpa using h
  · exact ⟨.init, rfl, rfl⟩
  · exact ⟨.accept 0, rfl, rfl⟩
  · exact ⟨.accept 1, rfl, rfl⟩
  · exact ⟨.status, rfl, rfl⟩
  · exact ⟨.buffer, rfl, rfl⟩
  · exact ⟨.reset, rfl, rfl⟩

/-- Settles O3: the decoder answers the reason for each reserved word, and an operation for each of
the encoded ones. -/
theorem reservedWordsAreRefused : Obligations.ReservedWordsAreRefused := by
  intro s agent w
  refine ⟨fun h => deliverWord_of_reserved (decode_of_operandBitSet w h) s,
    fun h => deliverWord_of_reserved (decode_of_unassignedOp w h) s, fun h => ?_⟩
  obtain ⟨i, hi, rfl⟩ := exists_encode_of_mem h
  exact ⟨i, deliverWord_of_decode (decode_encode hi) s⟩

/-! ### Which operation a step executes -/

/-- Settles O4: the stimulus is delivered, and delivering a word that decodes, or an operation by
name, is executing that operation. -/
theorem stepRunsTheDecodedOperation : Obligations.StepRunsTheDecodedOperation :=
  ⟨fun _ _ _ _ _ h hdecode => (step_of_input_cons h).trans (deliverWord_of_decode hdecode _),
    fun _ _ _ _ h => step_of_input_cons h, fun _ => step_of_input_nil⟩

theorem decodeTableWord_eq_some {nbits w : Nat} {i : Instr} :
    decodeTableWord nbits w = some i ↔ ∃ c, commandWord nbits w = some c ∧ decode c = .instr i := by
  unfold decodeTableWord
  cases commandWord nbits w with
  | none => simp
  | some c => cases hdecode : decode c <;> simp [hdecode]

/-- Settles O5: where the number reads as an operation it is a command word, which `withFetchWord`
presents. -/
theorem presentedWordRunsNext : Obligations.PresentedWordRunsNext := by
  intro s nbits w i h
  obtain ⟨c, hword, hdecode⟩ := decodeTableWord_eq_some.mp h
  have hpresent : s.withFetchWord nbits w = s.present (.word .startup c) := by
    simp [State.withFetchWord, hword]
  rw [hpresent, step_present]
  exact deliverWord_of_decode hdecode s

/-- Settles O6: what a stimulus delivers is a function of the word or the operation it carries. -/
theorem agentsAreNotToldApart : Obligations.AgentsAreNotToldApart := by
  intro s a a' w i
  simp only [step_present]
  exact ⟨rfl, rfl⟩

/-- Settles O7: the reset input clears the block as INIT does, whatever is lost with it. -/
theorem resetInputActsAsInit : Obligations.ResetInputActsAsInit := by
  intro s lost
  rw [step_present, exec_of_beginsCycle rfl]
  rfl

end Sys2Proof.Machine
end

section
/-! Every step keeps the invariants, from power-on and through every violation (spec/10_state.md
section 7), and no step clears the mark (R95). -/

namespace Sys2Proof.Machine

/-! ### Before the first INIT or RESET -/

/-- STATUS before the first INIT or RESET is CV2 (R87, U2). -/
theorem exec_status_of_uninited {s : State} (h : s.inited = false) :
    exec .status s = .next (s.violateWith s.anyStatus) := by
  simp [exec, execStatus, h]

/-- BUFFER before the first INIT or RESET is CV2 (R89, U2). -/
theorem exec_buffer_of_uninited {s : State} (h : s.inited = false) :
    exec .buffer s = .next (s.violateWith s.anyView) := by
  simp [exec, execBuffer, h]

/-- ACCEPT before the first INIT or RESET is CV2 (R70). -/
theorem exec_accept_of_uninited {s : State} (h : s.inited = false) (b : Bit) :
    exec (.accept b.toNat) s = .fault .acceptBeforeInit := by
  simp [exec, execAccept, h]

/-- All an operation can do before the first INIT or RESET: clear the block, or violate CV2. -/
theorem exec_eq_next_of_uninited {i : Instr} {s t : State} (hs : s.inited = false)
    (h : exec i s = .next t) : t = s.cleared.done .nothing ∨ ∃ r, t = s.violateWith r := by
  cases i with
  | init => cases h; exact .inl rfl
  | reset => cases h; exact .inl rfl
  | accept b =>
    obtain ⟨-, hinited, -⟩ := execAccept_eq_next h
    exact absurd hinited (Bool.eq_false_iff.mp hs)
  | status =>
    rw [exec_status_of_uninited hs] at h
    cases h
    exact .inr ⟨_, rfl⟩
  | buffer =>
    rw [exec_buffer_of_uninited hs] at h
    cases h
    exact .inr ⟨_, rfl⟩

/-! ### The invariants -/

/-- Free values are within the sizes of their registers (R25), and R21 to R23 are not asked of a block
that is not initialised. -/
theorem State.inv_of_unspecified {s t : State} (hbuf : t.buf = s.unspecified.buf)
    (hfill : t.fillIndex = s.unspecified.fillIndex) (hcfg : t.cfg = s.cfg)
    (ht : t.inited = false) : t.Inv where
  buf_wf := hbuf ▸ Memory.ofFn_wf _ _
  buf_inRange := by rw [hbuf, hcfg]; exact Memory.ofFn_inRange _ _
  fill_lt := by rw [hfill, hcfg]; exact Nat.mod_lt _ (Nat.two_pow_pos _)
  settled h := absurd h (Bool.eq_false_iff.mp ht)

theorem State.inv_restart (s : State) : s.restart.Inv :=
  State.inv_of_unspecified (s := s) rfl rfl rfl rfl

/-- The stimuli waiting have no bearing on the invariants. -/
theorem State.Inv.take {s : State} (hs : s.Inv) (rest : List Stimulus) : (s.take rest).Inv where
  buf_wf := hs.buf_wf
  buf_inRange := hs.buf_inRange
  fill_lt := hs.fill_lt
  settled h :=
    have settled := hs.settled h
    ⟨settled.full_iff, settled.empty_iff, settled.filling_iff, settled.fill_le, settled.acc_lt,
      settled.slot_clear, settled.full_clear, settled.rest_zero⟩

theorem State.Inv.exec {i : Instr} {s t : State} (hs : s.Inv) (h : exec i s = .next t) : t.Inv := by
  cases hinited : s.inited with
  | true =>
    have hready : s.Ready := ⟨hinited, hs⟩
    exact (hready.exec h).inv
  | false =>
    obtain rfl | ⟨r, rfl⟩ := exec_eq_next_of_uninited hinited h
    · exact (s.ready_cleared.done _).inv
    · exact State.inv_of_unspecified (s := s) rfl rfl rfl hinited

theorem State.Inv.deliver {x : Stimulus} {s t : State} (hs : s.Inv) (h : deliver x s = .next t) :
    t.Inv := by
  cases x with
  | word agent w =>
    obtain ⟨i, -, hexec⟩ := deliverWord_eq_next.mp h
    exact hs.exec hexec
  | call agent i => exact State.Inv.exec hs h
  | resetInput lost => cases h; exact (s.ready_cleared.done _).inv
  | powerLoss => cases h; exact s.inv_restart

/-- What the delivery of every stimulus keeps, a step keeps, if the stimuli waiting have no bearing on
it. -/
theorem step_keeps {P : State → Prop} (htake : ∀ {s : State} {rest}, P s → P (s.take rest))
    (hdeliver : ∀ {x : Stimulus} {s t : State}, P s → deliver x s = .next t → P t)
    {s t : State} (hs : P s) (h : step s = .next t) : P t := by
  cases hinput : s.input with
  | nil =>
    rw [step_of_input_nil hinput] at h
    cases h
    exact hs
  | cons x rest =>
    rw [step_of_input_cons hinput] at h
    exact hdeliver (htake hs) h

/-- Settles O10: each stimulus leaves the block ready, or with free values within their registers and
`inited` false; on an initialised block the operations keep R21 to R23. -/
theorem stepKeepsInv : Obligations.StepKeepsInv :=
  fun _ _ hs h => step_keeps (fun hs => hs.take _) State.Inv.deliver hs h

/-! ### The initial states -/

/-- A cleared block holds R27's values. -/
theorem State.initial_cleared (s : State) : s.cleared.Initial :=
  ⟨fun _ => rfl, rfl, rfl, rfl, rfl, rfl, rfl, rfl⟩

/-- The result returned is none of R27's elements. -/
theorem State.Initial.done {s : State} (hs : s.Initial) (r : Response) : (s.done r).Initial :=
  ⟨hs.buf, hs.fillIndex, hs.acc, hs.cnt, hs.pairValid, hs.pairBit, hs.status, hs.inited⟩

/-- Clearing a block just reset leaves it as it is. -/
theorem State.initial_resetOf (cfg : Config) : (State.resetOf cfg).Initial :=
  State.initial_cleared (State.resetOf cfg)

theorem State.ready_resetOf (cfg : Config) : (State.resetOf cfg).Ready :=
  State.ready_cleared (State.resetOf cfg)

/-- Settles O9: the state after reset is a cleared one, and power-on is a restart. -/
theorem resetAndPowerOnStatesMeetInv : Obligations.ResetAndPowerOnStatesMeetInv :=
  ⟨rfl, State.initial_resetOf _, State.ready_resetOf _, fun cfg =>
    ⟨State.initial_resetOf cfg, State.ready_resetOf cfg, State.restart_inited _,
      State.inv_restart _⟩⟩

/-- The elements after a restart are free values, which only the parameter and the number of the draw
tell apart (log entry 3). -/
theorem State.restart_sameElements {s s' : State} (hcfg : s'.cfg = s.cfg)
    (hfresh : s'.fresh = s.fresh) : s.restart.SameElements s'.restart := by
  constructor <;> simp [hcfg, hfresh]

/-- Settles O8: a power loss is a restart, whose elements are no function of those before, and INIT
clears any block. -/
theorem noStateSurvivesPowerLoss : Obligations.NoStateSurvivesPowerLoss :=
  fun s s' hcfg hfresh => ⟨s.restart, s'.restart, rfl, rfl, rfl,
    State.restart_sameElements hcfg hfresh, rfl, _, exec_of_beginsCycle rfl _,
    s.restart.initial_cleared.done _⟩

/-! ### The mark -/

theorem exec_keeps_mark {i : Instr} {s t : State} (hs : s.violated = true)
    (h : exec i s = .next t) : t.violated = true := by
  cases hinited : s.inited with
  | true => exact (exec_keeps_violated hinited h).trans hs
  | false =>
    obtain rfl | ⟨r, rfl⟩ := exec_eq_next_of_uninited hinited h
    · exact hs
    · rfl

theorem deliver_keeps_mark {x : Stimulus} {s t : State} (hs : s.violated = true)
    (h : deliver x s = .next t) : t.violated = true := by
  cases x with
  | word agent w =>
    obtain ⟨i, -, hexec⟩ := deliverWord_eq_next.mp h
    exact exec_keeps_mark hs hexec
  | call agent i => exact exec_keeps_mark hs h
  | resetInput lost => cases h; exact hs
  | powerLoss => cases h; exact hs

/-- Settles O39: no stimulus clears the mark; clearing the block zeroes its elements only. -/
theorem violationMarkStays : Obligations.ViolationMarkStays := by
  refine ⟨fun s t h hs => step_keeps (P := fun u => u.violated = true) id deliver_keeps_mark hs h,
    fun s hs => ?_, fun s hs => ?_⟩
  · exact ⟨_, _, exec_status_of_uninited hs, exec_of_beginsCycle rfl _,
      (State.initial_cleared _).done _, rfl⟩
  · exact ⟨_, _, exec_buffer_of_uninited hs, exec_of_beginsCycle rfl _,
      (State.initial_cleared _).done _, rfl⟩

end Sys2Proof.Machine
end

section
/-! INIT and RESET (spec/40_initialize_reset.md) and what an operation asks of the block before it: the
restart discards everything, ACCEPT needs a raw bit and one restart (R60 to R65, R70, R97). -/

namespace Sys2Proof.Machine

/-! ### The operations that begin a cycle -/

theorem beginsCycle_iff {i : Instr} : beginsCycle i = true ↔ i = .reset ∨ i = .init := by
  cases i <;> simp [beginsCycle]

/-- While an ACCEPT is in flight INIT and RESET are CV4 (R43, U4). -/
theorem Refined.issue_beginsCycle_of_inFlight {i : Instr} {r : Refined} (hi : beginsCycle i = true)
    (hr : r.inFlight ≠ []) : r.issue i = .refused .resetDuringAccept := by
  obtain rfl | rfl := beginsCycle_iff.mp hi
  · exact if_neg hr
  · exact if_neg hr

/-! ### INIT and RESET -/

/-- The stimuli waiting, the mark and the count of draws are not cleared (R60). -/
theorem State.sameSurroundings_cleared_done (s : State) (r : Response) :
    s.SameSurroundings (s.cleared.done r) := ⟨rfl, rfl, rfl, rfl⟩

/-- Settles O13: INIT is the clearing of the block, from which STATUS returns Empty. -/
theorem initZeroesEverything : Obligations.InitZeroesEverything :=
  ⟨rfl, fun s => ⟨_, exec_of_beginsCycle rfl s, s.initial_cleared.done _, rfl,
    s.sameSurroundings_cleared_done _, rfl, ⟨_, exec_status_of_inited rfl, rfl⟩,
    fun _ => Refined.issue_beginsCycle_of_inFlight rfl⟩⟩

/-- Each INIT after the first finds the block as the first left it (R61). -/
theorem runOps_replicate_init (n : Nat) (s : State) :
    ∃ rs, runOps (List.replicate (n + 1) .init) s = .next (s.cleared.done .nothing, rs) := by
  induction n generalizing s with
  | zero => exact ⟨_, runOps_cons_next.mpr ⟨_, [], exec_of_beginsCycle rfl s, rfl, rfl⟩⟩
  | succ n ih =>
    obtain ⟨rs, hrest⟩ := ih (s.cleared.done .nothing)
    exact ⟨_, runOps_cons_next.mpr ⟨_, rs, exec_of_beginsCycle rfl s, hrest, rfl⟩⟩

/-- Settles O14: a cleared block is not changed by clearing it; before it the checks for CV2 answer. -/
theorem initIsIdempotent : Obligations.InitIsIdempotent := by
  refine ⟨fun s n => ?_, fun s b hs => ⟨exec_accept_of_uninited hs b,
    ⟨_, exec_status_of_uninited hs, rfl⟩, ⟨_, exec_buffer_of_uninited hs, rfl⟩⟩⟩
  obtain ⟨rs, hrun⟩ := runOps_replicate_init n s
  exact ⟨_, rs, exec_of_beginsCycle rfl s, hrun⟩

/-- What completes was well formed: any other ACCEPT is refused at the boundary (R49, R97). -/
theorem wellFormed_of_exec {i : Instr} {s t : State} (h : exec i s = .next t) : i.WellFormed := by
  cases i with
  | init => rfl
  | reset => rfl
  | status => rfl
  | buffer => rfl
  | accept b =>
    obtain ⟨hb, -⟩ := execAccept_eq_next h
    exact Instr.wellFormed_accept.mpr hb

/-- Settles O15: RESET clears the block as INIT does; an operation of the cycle leaves a Full block as
it was, so one that does not begins a cycle. -/
theorem resetIsIdenticalToInit : Obligations.ResetIsIdenticalToInit := by
  refine ⟨rfl, fun s => ⟨?_, _, exec_of_beginsCycle rfl s, s.initial_cleared.done _,
    s.sameSurroundings_cleared_done _, rfl⟩, fun s t i hs hfull h hleft => ?_,
    fun _ => Refined.issue_beginsCycle_of_inFlight rfl⟩
  · rw [exec_of_beginsCycle rfl, exec_of_beginsCycle rfl]
  · refine beginsCycle_iff.mp (Decidable.byContradiction fun hi => ?_)
    obtain ⟨r, hdone⟩ :=
      exec_of_full (wellFormed_of_exec h) (Bool.eq_false_of_not_eq_true hi) hs hfull
    obtain rfl : s.done r = t := Host.Outcome.next.inj (hdone.symm.trans h)
    exact hleft hfull

/-- After INIT or RESET a raw bit waits in an otherwise cleared block (R65). -/
theorem exec_accept_cleared (s : State) (b : Bit) :
    exec (.accept b.toNat) (s.cleared.done .nothing) =
      .next (((s.cleared.done .nothing).holdBit b).done .nothing) :=
  exec_accept_of_empty_slot rfl Status.noConfusion rfl

/-- Settles O16: the raw bit finds the slot empty and the block not Full. -/
theorem restartDiscardsEverything : Obligations.RestartDiscardsEverything :=
  fun s _ b hi => ⟨_, _, exec_of_beginsCycle hi s, exec_accept_cleared s b, fun _ => rfl, rfl, rfl, rfl,
    rfl, rfl⟩

/-! ### What ACCEPT asks for -/

/-- On a ready block every raw bit is accepted (R70). -/
theorem State.Ready.accept_completes {s : State} (hs : s.Ready) (b : Bit) :
    ∃ t, Machine.exec (.accept b.toNat) s = .next t :=
  hs.tracksFill.accept_completes b.isLt

/-- Settles O19: `inited` is checked before the state is looked at, and is all that is asked. -/
theorem acceptNeedsInit : Obligations.AcceptNeedsInit :=
  ⟨fun _ b hs => exec_accept_of_uninited hs b, fun _ b hs => hs.accept_completes b⟩

/-- Settles O29: the operand is looked at before the state. -/
theorem rawBitOutsideRangeIsRefused : Obligations.RawBitOutsideRangeIsRefused := by
  intro s b hb
  simp [exec, execAccept, rawBit_eq_none.mpr hb]

/-- Settles O56: in the one order the bit finds a cleared block, in the other the block is cleared
after it. -/
theorem resetAgainstAcceptInFlight : Obligations.ResetAgainstAcceptInFlight := by
  refine ⟨fun s b hs => ⟨?_, ?_⟩, fun r hr => ⟨Refined.issue_beginsCycle_of_inFlight rfl hr,
    Refined.issue_beginsCycle_of_inFlight rfl hr⟩⟩
  · exact ⟨_, _, runOps_cons_next.mpr ⟨_, _, exec_of_beginsCycle rfl s,
      runOps_cons_next.mpr ⟨_, [], exec_accept_cleared s b, rfl, rfl⟩, rfl⟩, rfl, rfl, rfl⟩
  · obtain ⟨t, haccept⟩ := hs.accept_completes b
    exact ⟨_, _, runOps_cons_next.mpr ⟨t, _, haccept,
      runOps_cons_next.mpr ⟨_, [], exec_of_beginsCycle rfl t, rfl, rfl⟩, rfl⟩,
      t.initial_cleared.done _⟩

end Sys2Proof.Machine
end

section
/-! What the reads return (spec/42_status_buffer.md, R26), and the results on wires (R55, R56). -/

namespace Sys2Proof.Machine

/-- Settles O30: an initialised block answers the stored `status`, which the cursor and the persistence
of Full say the rest of; before that the result is a free value. -/
theorem statusReturnsStoredValue : Obligations.StatusReturnsStoredValue := by
  refine ⟨rfl, fun _ => exec_status_of_inited, fun s hs hfill hcnt _ => ?_, fun s hs hfilling => ?_,
    fun s r hs hfull => ?_, fun s hs => ?_⟩
  · have hempty : s.status = .empty := hs.settled.empty_iff.mpr ⟨hfill, hcnt⟩
    exact ⟨_, exec_status_of_inited hs.inited, congrArg Response.status hempty⟩
  · obtain ⟨hne, hlt⟩ := hs.tracksFill.filling_iff_bitCursor.mp hfilling
    exact ⟨Nat.pos_of_ne_zero hne, hlt⟩
  · obtain ⟨x, rs, hfeed⟩ := runOps_of_full (withinCycle_feed r) hs.inited hfull
    exact ⟨_, _, runOps_concat hfeed (exec_status_of_inited hs.inited),
      congrArg Response.status hfull⟩
  · exact ⟨_, _, exec_status_of_uninited hs, rfl, rfl, hs, rfl, rfl⟩

/-- Settles O32: BUFFER returns the view, which lists the bytes by their indices; before the first INIT
or RESET the bytes are free values. -/
theorem bufferReturnsBytes : Obligations.BufferReturnsBytes :=
  ⟨rfl, fun s hs => ⟨s.viewBytes, exec_buffer_of_inited hs, Memory.length_bytes _ _,
      fun _ hk => State.viewBytes_getElem? hk⟩,
    fun s hs => ⟨_, _, exec_buffer_of_uninited hs, rfl, by simp, rfl, hs, rfl, rfl⟩⟩

/-- The view is a function of the bytes below `CAPACITY` (R26). -/
theorem State.viewBytes_congr {s s' : State} (hcfg : s'.cfg = s.cfg)
    (hbuf : ∀ k, k < s.cfg.capacity → s'.buf.read k = s.buf.read k) :
    s'.viewBytes = s.viewBytes := by
  rw [State.viewBytes, State.viewBytes, hcfg]
  exact Memory.bytes_congr hbuf

/-- Settles O37: STATUS shows `status` and BUFFER the bytes. -/
theorem hiddenStateIsNotVisible : Obligations.HiddenStateIsNotVisible :=
  fun _ _ hs hs' hcfg hstatus hbuf => ⟨_, _, _, _, exec_status_of_inited hs,
    exec_status_of_inited hs', congrArg Response.status hstatus, exec_buffer_of_inited hs,
    exec_buffer_of_inited hs', congrArg Response.view (State.viewBytes_congr hcfg hbuf)⟩

/-- Byte `i` of a wide bus (R56): the bytes after the first stand above it. -/
theorem getLsbD_viewBus {bytes : List Byte} {i j : Nat} {b : Byte} (hi : bytes[i]? = some b)
    (hj : j < 8) : (viewBus bytes).getLsbD (8 * i + j) = b.getLsbD j := by
  induction bytes generalizing i with
  | nil => cases hi
  | cons c rest ih =>
    rw [viewBus, BitVec.getLsbD_append]
    cases i with
    | zero =>
      obtain rfl : c = b := by simpa using hi
      simp [hj]
    | succ i =>
      have habove : ¬8 * (i + 1) + j < 8 := by omega
      have hplace : 8 * (i + 1) + j - 8 = 8 * i + j := by omega
      rw [if_neg habove, hplace]
      exact ih hi

theorem statusOfCode_statusCode (st : Status) :
    statusOfCode (statusCode st) = some st ∧ statusCode st ≠ 0b11#2 := by
  cases st <;> decide

/-- Settles O52: the bus layout by induction on the bytes, the codes value by value. -/
theorem resultsOnWires : Obligations.ResultsOnWires :=
  ⟨fun _ _ _ _ => getLsbD_viewBus, statusOfCode_statusCode, rfl, rfl, rfl, rfl⟩

end Sys2Proof.Machine
end

section
/-! What one ACCEPT changes and what it leaves, by whether it emits a corrected bit: its frame, the bit
cursor (R24), the state machine of `status` (R79) and the committed bytes (R36). -/

namespace Sys2Proof.Machine

/-! ### Whether an ACCEPT emits a corrected bit -/

/-- The raw bit completes a differing pair on a block that is not Full (R75). -/
abbrev State.Emits (s : State) (b : Bit) : Prop :=
  s.status ≠ .full ∧ s.pairValid = true ∧ s.pairBit ≠ b

/-- All an ACCEPT can do, in two cases: the first bit of the pair is appended, or nothing but the slot
and the result is written. -/
theorem execAccept_emits_or_not {b : Nat} {s t : State} (h : execAccept b s = .next t) :
    (s.Emits (BitVec.ofNat 1 b) ∧ s.emptySlot.append s.pairBit = .next t) ∨
      (¬s.Emits (BitVec.ofNat 1 b) ∧
        t = { s with pairValid := t.pairValid, pairBit := t.pairBit, response := .nothing }) := by
  obtain ⟨-, -, ⟨hfull, rfl⟩ | ⟨-, hv, rfl⟩ | ⟨-, -, heq, rfl⟩ | ⟨hfull, hv, hne, happend⟩⟩ :=
    execAccept_eq_next h
  · exact .inr ⟨fun ⟨hnot, _, _⟩ => hnot hfull, rfl⟩
  · exact .inr ⟨fun ⟨_, hvalid, _⟩ => Bool.noConfusion (hv.symm.trans hvalid), rfl⟩
  · exact .inr ⟨fun ⟨_, _, hne⟩ => hne heq, rfl⟩
  · exact .inl ⟨⟨hfull, hv, hne⟩, happend⟩

theorem exec_accept_emits_or_not {b : Bit} {s t : State}
    (h : exec (.accept b.toNat) s = .next t) :
    (s.Emits b ∧ s.emptySlot.append s.pairBit = .next t) ∨
      (¬s.Emits b ∧
        t = { s with pairValid := t.pairValid, pairBit := t.pairBit, response := .nothing }) := by
  have hcases := execAccept_emits_or_not h
  rwa [BitVec.ofNat_toNat, BitVec.setWidth_eq] at hcases

/-! ### The frame -/

/-- On an initialised block no operation touches what the model adds to it, but for the result: it does
the same in whatever surroundings, so it leaves those it finds. -/
theorem exec_keeps_surroundings {i : Instr} {s t : State} (hs : s.inited = true)
    (h : exec i s = .next t) : s.SameSurroundings t := by
  have ht : t = t.inSurroundingsOf s :=
    Host.Outcome.next.inj (h.symm.trans (exec_inSurroundingsOf s hs h))
  obtain ⟨hcfg, hinput⟩ := exec_keeps_cfg_input h
  exact ⟨hcfg, hinput, exec_keeps_violated hs h, by rw [ht]; rfl⟩

/-- A corrected bit that completes a byte changes that byte only (R77). -/
theorem State.append_read_of_ne {e : Bit} {s t : State} (hwf : s.buf.wf)
    (h : s.append e = .next t) {k : Nat} (hk : k ≠ s.fillIndex) : t.buf.read k = s.buf.read k := by
  obtain ⟨-, rfl⟩ | ⟨-, hcommit⟩ := State.append_eq_next.mp h
  · rfl
  · obtain ⟨-, rfl⟩ := State.commit_eq_next.mp hcommit
    exact Memory.read_write_other hwf _ hk

/-- A corrected bit that completes no byte changes neither the buffer nor `fill_index` (R76). -/
theorem State.append_keeps_buf {e : Bit} {s t : State} (h : s.append e = .next t)
    (hcnt : s.cnt ≠ 7#3) : t.buf = s.buf ∧ t.fillIndex = s.fillIndex := by
  obtain ⟨-, rfl⟩ | ⟨h7, -⟩ := State.append_eq_next.mp h
  · exact ⟨rfl, rfl⟩
  · exact absurd (BitVec.eq_of_toNat_eq h7) hcnt

/-- Settles O28: an ACCEPT that emits nothing writes the slot and the result; one that does appends,
which stores to the byte at `fill_index`, and only at `cnt = 7`. -/
theorem acceptFrame : Obligations.AcceptFrame := by
  intro s b hs
  obtain ⟨t, h⟩ := hs.accept_completes b
  refine ⟨t, h, exec_keeps_surroundings hs.inited h, (hs.exec h).inited.trans hs.inited.symm,
    execAccept_returns_nothing h, ?_⟩
  obtain ⟨⟨hfull, hv, hne⟩, happend⟩ | ⟨hnone, ht⟩ := exec_accept_emits_or_not h
  · refine ⟨fun _ _ => State.append_read_of_ne (s := s.emptySlot) hs.inv.buf_wf happend,
      fun hnot => ?_, fun hnot => absurd ⟨hfull, hv, hne⟩ hnot⟩
    obtain ⟨hbuf, hfill⟩ := State.append_keeps_buf happend fun hcnt => hnot ⟨hfull, hv, hne, hcnt⟩
    exact ⟨fun k => congrArg (Memory.read · k) hbuf, hfill⟩
  · rw [ht]
    exact ⟨fun ⟨hfull, hv, hne, _⟩ => absurd ⟨hfull, hv, hne⟩ hnone, fun _ => ⟨fun _ => rfl, rfl⟩,
      fun _ => ⟨rfl, rfl, rfl⟩⟩

/-! ### The bit cursor and `status` -/

theorem State.Ready.bitCursor_le {s : State} (hs : s.Ready) : s.bitCursor ≤ 8 * s.cfg.capacity := by
  have hcnt := s.cnt.isLt
  unfold State.bitCursor
  by_cases hfull : s.status = .full
  · obtain ⟨hzero, -⟩ := hs.settled.full_clear hfull
    rw [hs.settled.full_iff.mp hfull, hzero]
    exact le_rfl
  · have := hs.fill_lt hfull
    omega

/-- The cursor reaches its bound exactly when the block is Full (R24). -/
theorem State.Ready.bitCursor_eq_iff_full {s : State} (hs : s.Ready) :
    s.bitCursor = 8 * s.cfg.capacity ↔ s.status = .full := by
  rw [hs.tracksFill.full_iff_bitCursor]
  exact ⟨fun h => h.ge, fun h => le_antisymm hs.bitCursor_le h⟩

/-- Settles O40: an append moves the cursor by one and nothing else of ACCEPT does; the bound holds of
every ready block. -/
theorem bitCursorMoves : Obligations.BitCursorMoves := by
  intro s t i hs h
  have ht := hs.exec h
  refine ⟨fun hi => ?_, fun hi => ?_, fun b hi => ?_, ht.bitCursor_le, ht.bitCursor_eq_iff_full⟩
  · rw [exec_of_beginsCycle hi] at h
    cases h
    rfl
  · obtain ⟨r, hread, -⟩ := exec_read_eq_done hs.inited hi
    rw [hread] at h
    cases h
    rfl
  · subst hi
    obtain ⟨hemits, happend⟩ | ⟨hnone, ht⟩ := exec_accept_emits_or_not h
    · rw [if_pos hemits]
      exact State.append_bitCursor (s := s.emptySlot) happend
    · rw [if_neg hnone, ht]
      rfl

/-- The `status` a corrected bit leaves: Full exactly with the last byte's last bit (R78). -/
theorem State.append_status_eq {e : Bit} {s t : State} (h : s.append e = .next t) :
    t.status = if s.cnt = 7#3 ∧ s.fillIndex + 1 = s.cfg.capacity then .full else .filling := by
  obtain ⟨hlt, rfl⟩ | ⟨h7, hcommit⟩ := State.append_eq_next.mp h
  · have hcnt : s.cnt ≠ 7#3 := fun heq => by simp [heq] at hlt
    simp [hcnt]
  · obtain ⟨-, rfl⟩ := State.commit_eq_next.mp hcommit
    have hcnt : s.cnt = 7#3 := BitVec.eq_of_toNat_eq h7
    simp [hcnt, statusAfterCommit]

/-- Settles O41: ACCEPT writes `status` only with an append, which from Empty finds `cnt` at 0 and so
cannot complete a byte. -/
theorem statusStateMachine : Obligations.StatusStateMachine := by
  intro s t i hs h
  refine ⟨fun hi => ?_, fun hi => ?_, fun b hi => ?_⟩
  · rw [exec_of_beginsCycle hi] at h
    cases h
    rfl
  · obtain ⟨r, hread, -⟩ := exec_read_eq_done hs.inited hi
    rw [hread] at h
    cases h
    rfl
  · subst hi
    obtain ⟨⟨hfull, hv, hne⟩, happend⟩ | ⟨hnone, ht⟩ := exec_accept_emits_or_not h
    · have hstatus : t.status =
          if s.cnt = 7#3 ∧ s.fillIndex + 1 = s.cfg.capacity then .full else .filling :=
        State.append_status_eq (s := s.emptySlot) happend
      refine ⟨fun hempty => ?_, fun _ => ?_, fun h => absurd h hfull⟩
      · obtain ⟨-, hcnt⟩ := hs.settled.empty_iff.mp hempty
        simp [hstatus, hv, hne, hcnt]
      · simp [hstatus, hv, hne]
    · have hkeep : t.status = s.status := by rw [ht]
      refine ⟨fun hempty => ?_, fun hfilling => ?_, hkeep.trans⟩
      · rw [if_neg fun hpair => hnone ⟨by simp [hempty], hpair⟩, hkeep, hempty]
      · rw [if_neg fun ⟨hv, hne, _⟩ => hnone ⟨by simp [hfilling], hv, hne⟩, hkeep, hfilling]

/-! ### Committed bytes -/

/-- The bytes below `fill_index` of `s` stand in `t` too, where `fill_index` is no lower. -/
structure State.KeepsCommitted (s t : State) : Prop where
  fill_le : s.fillIndex ≤ t.fillIndex
  read_eq : ∀ k, k < s.fillIndex → t.buf.read k = s.buf.read k

theorem State.KeepsCommitted.trans {s t u : State} (h : s.KeepsCommitted t)
    (h' : t.KeepsCommitted u) : s.KeepsCommitted u :=
  ⟨h.fill_le.trans h'.fill_le, fun k hk =>
    (h'.read_eq k (hk.trans_le h.fill_le)).trans (h.read_eq k hk)⟩

theorem State.keepsCommitted_append {e : Bit} {s t : State} (hwf : s.buf.wf)
    (h : s.append e = .next t) : s.KeepsCommitted t := by
  refine ⟨?_, fun k hk => State.append_read_of_ne hwf h hk.ne⟩
  obtain ⟨-, rfl⟩ | ⟨-, hcommit⟩ := State.append_eq_next.mp h
  · exact le_rfl
  · obtain ⟨-, rfl⟩ := State.commit_eq_next.mp hcommit
    exact Nat.le_succ _

/-- An operation of the cycle stores above the committed bytes or not at all (R36). -/
theorem State.Ready.keepsCommitted_exec {i : Instr} {s t : State} (hs : s.Ready)
    (hi : beginsCycle i = false) (h : Machine.exec i s = .next t) : s.KeepsCommitted t := by
  cases i with
  | init => cases hi
  | reset => cases hi
  | accept b =>
    obtain ⟨-, happend⟩ | ⟨-, ht⟩ := execAccept_emits_or_not h
    · have hkept := State.keepsCommitted_append (s := s.emptySlot) hs.inv.buf_wf happend
      exact ⟨hkept.fill_le, hkept.read_eq⟩
    · rw [ht]
      exact ⟨le_rfl, fun _ _ => rfl⟩
  | status =>
    rw [exec_status_of_inited hs.inited] at h
    cases h
    exact ⟨le_rfl, fun _ _ => rfl⟩
  | buffer =>
    rw [exec_buffer_of_inited hs.inited] at h
    cases h
    exact ⟨le_rfl, fun _ _ => rfl⟩

theorem State.Ready.keepsCommitted_runOps {ops : List Instr} {s t : State} {rs : List Response}
    (hs : s.Ready) (hops : withinCycle ops = true) (h : runOps ops s = .next (t, rs)) :
    s.KeepsCommitted t := by
  induction ops generalizing s rs with
  | nil => cases h; exact ⟨le_rfl, fun _ _ => rfl⟩
  | cons i ops ih =>
    obtain ⟨-, hi, hops⟩ := (withinCycle_cons i ops).mp hops
    obtain ⟨u, rs', hexec, hrest, -⟩ := runOps_cons_next.mp h
    exact (hs.keepsCommitted_exec hi hexec).trans (ih (hs.exec hexec) hops hrest)

/-- Settles O43: each operation of the cycle keeps the committed bytes, and a Full block changes in its
result only. -/
theorem committedBytesAreStable : Obligations.CommittedBytesAreStable := by
  intro s ops hs hops
  obtain ⟨t, rs, hrun⟩ := hs.tracksFill.runOps_completes hops
  obtain ⟨hfill, hread⟩ := hs.keepsCommitted_runOps hops hrun
  refine ⟨t, rs, hrun, hfill, hread, fun hfull k => ?_⟩
  obtain ⟨r, rs', hdone⟩ := runOps_of_full hops hs.inited hfull
  rw [hdone] at hrun
  cases hrun
  rfl

/-! ### Equal pairs -/

theorem differing_cons_cons_eq_nil {a b : Bit} {rest : List Bit}
    (h : differing (a :: b :: rest) = []) : a = b ∧ differing rest = [] := by
  by_cases hab : a = b
  · exact ⟨hab, by simpa [differing, pairsOf, hab] using h⟩
  · simp [differing, pairsOf, hab] at h

/-- Pairs of equal raw bits leave a block whose slot is empty as it was, but for a last bit that waits
(R74, R80). -/
theorem State.Ready.runOps_feed_of_no_differing {r : List Bit} {s : State} (hs : s.Ready)
    (hfull : s.status ≠ .full) (hv : s.pairValid = false) (hr : differing r = []) :
    ∃ t rs, runOps (feed r) s = .next (t, rs) ∧ t.status = s.status ∧ t.bitCursor = s.bitCursor ∧
      ∀ k, t.buf.read k = s.buf.read k := by
  induction r using pairsOf.induct generalizing s with
  | case1 a b rest ih =>
    obtain ⟨rfl, hrest⟩ := differing_cons_cons_eq_nil hr
    obtain ⟨u, rs, hpair, hsame⟩ := equalPairIsDiscarded.2 s a hs hfull hv
    have hu : u.Ready := runOps_keeps State.Ready.exec hpair hs
    obtain ⟨t, rs', hrun, hstatus, hcursor, hbuf⟩ :=
      ih hu (hsame.status ▸ hfull) (hsame.pairValid.trans hv) hrest
    refine ⟨t, rs ++ rs', runOps_append_next.mpr ⟨u, rs, rs', hpair, hrun, rfl⟩,
      hstatus.trans hsame.status, hcursor.trans ?_, fun k => (hbuf k).trans (hsame.buf k)⟩
    rw [State.bitCursor, State.bitCursor, hsame.fillIndex, hsame.cnt]
  | case2 a =>
    exact ⟨_, _, runOps_cons_next.mpr
      ⟨_, [], exec_accept_of_empty_slot hs.inited hfull hv, rfl, rfl⟩, rfl, rfl, fun _ => rfl⟩
  | case3 => exact ⟨s, [], rfl, rfl, rfl, fun _ => rfl⟩

/-- Settles O44: a Full block drops the stream, and on any other each pair is discarded. -/
theorem equalPairsMakeNoProgress : Obligations.EqualPairsMakeNoProgress := by
  intro s r hs hv hr
  by_cases hfull : s.status = .full
  · obtain ⟨x, rs, hrun⟩ := runOps_of_full (withinCycle_feed r) hs.inited hfull
    exact ⟨_, rs, hrun, rfl, rfl, fun _ => rfl⟩
  · exact hs.runOps_feed_of_no_differing hfull hv hr

end Sys2Proof.Machine
end

section
/-! What a cycle's raw bits make of the block: the closed form of its state (R86), the place of each
corrected bit (R31), and what a full cycle delivers and where it ends (R119). -/

namespace Sys2Proof.Machine

/-! ### Bits of packed bytes -/

/-- Bit `j` of packed bits is the `j`-th of them, and 0 beyond (R30). -/
theorem testBit_packBits (l : List Bit) (j : Nat) :
    (packBits l).testBit j = (l.getD j 0#1).getLsbD 0 := by
  induction l generalizing j with
  | nil => simp [packBits]
  | cons e l ih =>
    have hbit : ∀ e : Bit, (decide (e.toNat = 1)) = e.getLsbD 0 := by decide
    have he := e.isLt
    have hlow : (e.toNat + 2 * packBits l) % 2 = e.toNat := by omega
    have hhigh : (e.toNat + 2 * packBits l) / 2 = packBits l := by omega
    cases j with
    | zero =>
      rw [packBits, Nat.testBit_zero, hlow]
      exact hbit e
    | succ j =>
      rw [packBits, Nat.testBit_succ, hhigh, ih]
      rfl

/-- Bit `n mod 8` of packed byte `n div 8` is corrected bit `n` (R31). -/
theorem getLsbD_packedByte (e : List Bit) (n : Nat) :
    (packedByte e (n / 8)).getLsbD (n % 8) = (e.getD n 0#1).getLsbD 0 := by
  have hj : n % 8 < 8 := Nat.mod_lt _ (by decide)
  have hplace : 8 * (n / 8) + n % 8 = n := Nat.div_add_mod n 8
  rw [packedByte, BitVec.getLsbD_ofNat, testBit_packBits]
  simp [hj, List.getD_eq_getElem?_getD, hplace]

/-- Settles O49: a committed byte is packed from the corrected bits, and the cursor says that those of
the committed bytes are all there. -/
theorem correctedBitPosition : Obligations.CorrectedBitPosition := by
  intro s t i ops rs n hi hops h hn
  obtain ⟨p, ht⟩ := collected_of_runOps hi hops h
  have hbyte : n / 8 < t.fillIndex := by omega
  have hlen : n < (correctedBits (rawBits ops)).length := by
    have hcursor := ht.bitCursor_le
    unfold State.bitCursor at hcursor
    omega
  rw [ht.read_eq hbyte, getLsbD_packedByte, List.getElem?_eq_getElem hlen,
    List.getD_eq_getElem _ _ hlen]
  rfl

/-! ### The closed form -/

/-- The cursor counts the corrected bits up to the size of the buffer (R82, R86). -/
theorem State.Collected.bitCursor_eq_min {s : State} {r p : List Bit} (hs : s.Collected r p)
    (hready : s.Ready) : s.bitCursor = min (correctedBits r).length (8 * s.cfg.capacity) := by
  have hle := hready.bitCursor_le
  by_cases hfull : s.status = .full
  · have hcursor := hready.bitCursor_eq_iff_full.mpr hfull
    have := hs.bitCursor_le
    omega
  · have := hs.bitCursor_eq hfull
    omega

/-- The accumulator holds the corrected bits from the committed bytes on, as many as `cnt` says, packed
(R18, R86). -/
theorem State.Collected.toNat_acc {s : State} {r p : List Bit} (hs : s.Collected r p) :
    s.acc.toNat = packBits (((correctedBits r).drop (8 * s.fillIndex)).take s.cnt.toNat) := by
  obtain ⟨q, rfl⟩ := hs.isPrefix
  have hcnt := s.cnt.isLt
  have hlen := hs.stores.length_eq
  unfold State.bitCursor at hlen
  have hrest : ((correctedBits p).drop (8 * s.fillIndex)).length = s.cnt.toNat := by
    rw [List.length_drop]
    omega
  have hall : ((correctedBits p).drop (8 * s.fillIndex)).take 8 =
      (correctedBits p).drop (8 * s.fillIndex) := List.take_of_length_le (by omega)
  have hbits : ((correctedBits (p ++ q)).drop (8 * s.fillIndex)).take s.cnt.toNat =
      (correctedBits p).drop (8 * s.fillIndex) := by
    rw [correctedBits_append hs.whole_pairs, List.drop_append_of_le_length (by omega), ← hrest]
    exact List.take_left
  have hlt : packBits ((correctedBits p).drop (8 * s.fillIndex)) < 2 ^ 8 :=
    (packBits_lt _).trans_le (Nat.pow_le_pow_right (by decide) (by omega))
  rw [hs.stores.acc_eq, packedByte, hall, hbits, BitVec.toNat_ofNat, Nat.mod_eq_of_lt hlt]

/-- From the cursor on a ready block reads 0x00, beyond its last byte too (R23(e)). -/
theorem State.Ready.read_eq_zero {s : State} (hs : s.Ready) {k : Nat} (hk : s.fillIndex ≤ k) :
    s.buf.read k = 0x00#8 := by
  obtain hin | hout := Nat.lt_or_ge k s.cfg.capacity
  · exact hs.settled.rest_zero k hk hin
  · exact Memory.read_outside hs.inv.buf_inRange hout

/-- R21 and R22 in terms of the cursor. -/
theorem State.Ready.status_eq_of_bitCursor {s : State} (hs : s.Ready) :
    s.status = if s.bitCursor = 0 then .empty
      else if s.bitCursor = 8 * s.cfg.capacity then .full else .filling := by
  have hle := hs.bitCursor_le
  split
  · exact hs.tracksFill.empty_iff_bitCursor.mpr ‹_›
  split
  · exact hs.bitCursor_eq_iff_full.mp ‹_›
  · exact hs.tracksFill.filling_iff_bitCursor.mpr ⟨‹_›, by omega⟩

/-- From an INIT or RESET onward a block is ready. -/
theorem ready_of_runOps {i : Instr} {ops : List Instr} {s t : State} {rs : List Response}
    (hi : beginsCycle i = true) (h : runOps (i :: ops) s = .next (t, rs)) : t.Ready := by
  obtain ⟨u, rs', hu, hrest, -⟩ := runOps_cons_next.mp h
  rw [exec_of_beginsCycle hi] at hu
  cases hu
  exact runOps_keeps State.Ready.exec hrest (s.ready_cleared.done _)

/-- Settles O48: the cursor is the capped number of corrected bits, which gives `fill_index`, `cnt` and
`status`; the bytes and the accumulator are what the block has collected, and the slot is what the
pairing leaves over. -/
theorem closedFormOfState : Obligations.ClosedFormOfState := by
  intro s i r hi
  obtain ⟨t, rs, hrun, hslot⟩ := pairsDoNotOverlap.2 s i r hi
  obtain ⟨p, ht⟩ := collected_of_runOps hi (withinCycle_feed r) hrun
  rw [rawBits_feed] at ht
  have hready := ready_of_runOps hi hrun
  have hcursor := ht.bitCursor_eq_min hready
  rw [runOps_keeps_cfg hrun] at hcursor
  have hfull : min (correctedBits r).length (8 * s.cfg.capacity) = 8 * s.cfg.capacity ↔
      t.status = .full := by
    rw [← hcursor, ← runOps_keeps_cfg hrun]
    exact hready.bitCursor_eq_iff_full
  have hcnt := t.cnt.isLt
  refine ⟨t, rs, hrun, ?_, ?_, fun k hk => ht.read_eq hk, fun k hk => hready.read_eq_zero hk,
    ht.toNat_acc, ?_, fun hempty => ?_, fun hnot hodd => ?_, fun h => ?_⟩
  · rw [← hcursor, State.bitCursor]
    omega
  · rw [← hcursor, State.bitCursor]
    omega
  · rw [← hcursor, ← runOps_keeps_cfg hrun]
    exact hready.status_eq_of_bitCursor
  · have hv : t.pairValid = false := by
      by_cases hst : t.status = .full
      · obtain ⟨-, -, hv, -⟩ := hready.settled.full_clear hst
        exact hv
      · obtain ⟨heven, -⟩ := hslot hst
        exact heven (hempty.resolve_left (mt hfull.mp hst))
    exact ⟨hv, hready.settled.slot_clear hv⟩
  · obtain ⟨-, hwaits⟩ := hslot (mt hfull.mpr hnot)
    exact hwaits hodd
  · have hmin := hfull.mpr h
    have hle := length_correctedBits_le r
    omega

/-! ### What a full cycle delivers -/

/-- The raw bits that come after those which filled the block are dropped, whatever they are (R71). -/
theorem State.Collected.of_full {s : State} {r r' p : List Bit} (hs : s.Collected r p)
    (hfull : s.status = .full) (hr : r <+: r') : s.Collected r' p where
  tracks := hs.tracks
  whole_pairs := hs.whole_pairs
  stores := hs.stores
  isPrefix := hs.isPrefix.trans hr
  rest_waits hnot := absurd hfull hnot

/-- What a Full block shows: Full and the packed corrected bits of its cycle (R40, R119). -/
theorem State.Collected.observation_of_full {s : State} {r p : List Bit} (hs : s.Collected r p)
    (hfull : s.status = .full) :
    s.observation = (.full, (List.range s.cfg.capacity).map (packedByte (correctedBits r))) := by
  have hfill : s.fillIndex = s.cfg.capacity :=
    statusFor_eq_full_iff.mp (hs.tracks.status_eq ▸ hfull)
  rw [State.observation, hfull, State.viewBytes, Memory.bytes]
  congr 1
  exact List.map_congr_left fun k hk => hs.read_eq (hfill ▸ List.mem_range.mp hk)

theorem State.isFull_iff {s : State} : s.isFull = true ↔ s.status = .full := by
  simp [State.isFull]

/-- An INIT or RESET and operations of its cycle complete, from every state. -/
theorem runOps_completes_of_beginsCycle {i : Instr} {ops : List Instr} (hi : beginsCycle i = true)
    (hops : withinCycle ops = true) (s : State) : ∃ t rs, runOps (i :: ops) s = .next (t, rs) := by
  obtain ⟨t, rs, hrest⟩ := (s.ready_cleared.done .nothing).tracksFill.runOps_completes hops
  exact ⟨t, _, runOps_cons_next.mpr ⟨_, rs, exec_of_beginsCycle hi s, hrest, rfl⟩⟩

/-- Settles O51: the Full block has collected the second stream too, so that stream gives enough
corrected bits to fill the second block, and both show the bytes it packs to. -/
theorem cycleDeliversFunctionOfRawBits : Obligations.CycleDeliversFunctionOfRawBits := by
  intro s s' t i i' ops ops' rs hcfg hi hi' hops hops' h hfull hprefix
  obtain ⟨p, ht⟩ := collected_of_runOps hi hops h
  obtain ⟨t', rs', h'⟩ := runOps_completes_of_beginsCycle hi' hops' s'
  obtain ⟨p', ht'⟩ := collected_of_runOps hi' hops' h'
  have hsame : t'.cfg = t.cfg := by rw [runOps_keeps_cfg h', runOps_keeps_cfg h, hcfg]
  have htfull := State.isFull_iff.mp hfull
  have hmore := ht.of_full htfull hprefix
  have htfull' : t'.status = .full := by
    have henough := ht.tracks.full_iff_bitCursor.mp htfull
    have hgiven := hmore.bitCursor_le
    rw [ht'.tracks.full_iff_bitCursor, ht'.bitCursor_eq_min (ready_of_runOps hi' h'), hsame]
    omega
  exact ⟨t', rs', h', State.isFull_iff.mpr htfull',
    by rw [ht'.observation_of_full htfull', hmore.observation_of_full htfull, hsame]⟩

/-! ### The end of a run -/

theorem withinCycle_take {ops : List Instr} (hops : withinCycle ops = true) (n : Nat) :
    withinCycle (ops.take n) = true := by
  simp only [withinCycle, List.all_eq_true] at hops ⊢
  exact fun i hi => hops i (List.mem_of_mem_take hi)

theorem rawBits_append (ops ops' : List Instr) :
    rawBits (ops ++ ops') = rawBits ops ++ rawBits ops' := by
  induction ops with
  | nil => rfl
  | cons i ops ih =>
    rw [List.cons_append, rawBits_cons, ih, rawBits_cons i ops, List.append_assoc]

theorem rawBits_of_beginsCycle {i : Instr} (hi : beginsCycle i = true) (ops : List Instr) :
    rawBits (i :: ops) = rawBits ops := by
  obtain rfl | rfl := beginsCycle_iff.mp hi
  · rfl
  · rfl

/-- One operation feeds at most one raw bit. -/
theorem rawBits_singleton (i : Instr) : rawBits [i] = [] ∨ ∃ b, rawBits [i] = [b] := by
  cases i with
  | accept b => exact .inr ⟨_, rfl⟩
  | init => exact .inl rfl
  | status => exact .inl rfl
  | buffer => exact .inl rfl
  | reset => exact .inl rfl

/-- A block that becomes Full with the last operation stores every corrected bit of its cycle: those
before that operation leave room, and it feeds at most one raw bit more (R119). -/
theorem State.Collected.length_of_full {s : State} {r p : List Bit} {i : Instr}
    (hs : s.Collected (r ++ rawBits [i]) p) (hready : s.Ready) (hfull : s.status = .full)
    (hroom : (correctedBits r).length < 8 * s.cfg.capacity) :
    (correctedBits (r ++ rawBits [i])).length = 8 * s.cfg.capacity := by
  have hcursor := hready.bitCursor_eq_iff_full.mpr hfull
  obtain hnone | ⟨b, hb⟩ := rawBits_singleton i
  · have hle := hs.bitCursor_le
    rw [hnone, List.append_nil] at hle
    omega
  · rw [hb] at hs ⊢
    rw [← hs.bitCursor_eq_of_room hroom, hcursor]

/-- Where the first Full block of a run stands, the raw bits of the cycle give just the corrected bits
that fill it. -/
theorem length_correctedBits_at_end {i : Instr} {ops : List Instr} {s t : State} {m : Nat}
    {rs : List Response} (hi : beginsCycle i = true) (hops : withinCycle ops = true)
    (hm : m ≤ ops.length) (h : runOps (i :: ops.take m) s = .next (t, rs))
    (hfull : t.status = .full)
    (hfirst : ∀ k u rs', 1 ≤ k → k < m + 1 → runOps ((i :: ops).take k) s = .next (u, rs') →
      u.status ≠ .full) :
    (correctedBits (rawBits (ops.take m))).length = 8 * s.cfg.capacity := by
  obtain ⟨p, ht⟩ := collected_of_runOps hi (withinCycle_take hops m) h
  have hready := ready_of_runOps hi h
  have hcfg : t.cfg = s.cfg := runOps_keeps_cfg h
  cases m with
  | zero =>
    have hstored := ht.bitCursor_le
    have hcursor := hready.bitCursor_eq_iff_full.mpr hfull
    have hpos := t.cfg.capacity_pos
    have hzero : (correctedBits (rawBits (ops.take 0))).length = 0 := rfl
    omega
  | succ m =>
    obtain ⟨u, rs', hu⟩ := runOps_completes_of_beginsCycle hi (withinCycle_take hops m) s
    obtain ⟨p', hucol⟩ := collected_of_runOps hi (withinCycle_take hops m) hu
    have hnot : u.status ≠ .full := hfirst (m + 1) u rs' (by omega) (by omega) hu
    have hroom := mt hucol.tracks.full_iff_bitCursor.mpr hnot
    rw [hucol.bitCursor_eq hnot, runOps_keeps_cfg hu, ← hcfg] at hroom
    have htake : rawBits (ops.take (m + 1)) = rawBits (ops.take m) ++ rawBits [ops[m]] := by
      rw [List.take_succ_eq_append_getElem (by omega), rawBits_append]
    rw [htake] at ht ⊢
    rw [← hcfg]
    exact ht.length_of_full hready hfull (Nat.lt_of_not_le hroom)

/-- Settles O57: the search completes because the operations do; the state it finds has collected the
raw bits up to it, which fill the block and show there. -/
theorem endOfRunIsFirstFull : Obligations.EndOfRunIsFirstFull := by
  intro s i ops hi hops
  obtain ⟨v, rs, hall⟩ := runOps_completes_of_beginsCycle hi hops s
  refine ⟨runToEnd_total hall, fun n t h => ?_, fun h k u rs hk hu => ?_⟩
  · obtain ⟨hn, hlen, hfull, ⟨rs', hrun⟩, hfirst⟩ := runToEnd_some h
    obtain ⟨m, rfl⟩ := Nat.exists_eq_add_of_le' hn
    rw [List.take_succ_cons] at hrun ⊢
    rw [rawBits_of_beginsCycle hi]
    obtain ⟨p, ht⟩ := collected_of_runOps hi (withinCycle_take hops m) hrun
    have hcount :=
      length_correctedBits_at_end hi hops (Nat.le_of_succ_le_succ hlen) hrun hfull hfirst
    refine ⟨⟨rs', hrun⟩, hfirst, hcount, ?_, ⟨_, exec_status_of_inited ht.tracks.inited, rfl⟩,
      ⟨_, exec_buffer_of_inited ht.tracks.inited, rfl⟩⟩
    rw [← runOps_keeps_cfg hrun]
    exact ht.observation_of_full hfull
  · obtain hle | hgt := Nat.le_total k (i :: ops).length
    · exact runToEnd_none h hk hle hu
    · rw [List.take_of_length_le hgt, ← List.take_length (l := i :: ops)] at hu
      exact runToEnd_none h (Nat.succ_pos _) le_rfl hu

end Sys2Proof.Machine
end

section
/-! The pseudo-operations BUFRD and POLL (R58). -/

namespace Sys2Proof.Machine

/-- BUFRD is a BUFFER of whose view one byte is read (R58). -/
theorem bufrd_of_inited {s : State} {i : Nat} (hs : s.inited = true) (hi : i < s.cfg.capacity) :
    bufrd i s = .next (s.done (.view s.viewBytes), s.buf.read i) := by
  simp [bufrd, hi, exec_buffer_of_inited hs, State.viewBytes_getElem? hi]

/-- Settles O53: BUFRD leaves the elements as BUFFER does, and on a Full block the operations of the
cycle leave the byte it reads. -/
theorem byteReadsThroughTheView : Obligations.ByteReadsThroughTheView := by
  refine ⟨fun s i hs hi => ⟨_, bufrd_of_inited hs hi, s.sameElements_done _⟩, fun s i hi => ?_,
    fun s i ops hs hfull hi hops => ?_⟩
  · exact if_neg (Nat.not_lt.mpr hi)
  · obtain ⟨r, rs, hrun⟩ := runOps_of_full hops hs.inited hfull
    exact ⟨_, rs, _, hrun, bufrd_of_inited (s := s.done r) hs.inited hi⟩

/-! ### POLL -/

/-- The last try of POLL is one STATUS. -/
theorem poll_nil_of_inited {s : State} (hs : s.inited = true) :
    poll [] s = .next (s.done (.status s.status), decide (s.status = .full)) := by
  simp [poll, exec_status_of_inited hs]

/-- A try that sees Full ends POLL. -/
theorem poll_cons_of_full {s : State} (ops : List Instr) (more : List (List Instr))
    (hs : s.inited = true) (hfull : s.status = .full) :
    poll (ops :: more) s = .next (s.done (.status s.status), true) := by
  simp [poll, exec_status_of_inited hs, hfull]

/-- A try that does not lets the others' operations run and tries again. -/
theorem poll_cons_of_not_full {ops : List Instr} {s t : State} {rs : List Response}
    (more : List (List Instr)) (hs : s.inited = true) (hfull : s.status ≠ .full)
    (h : runOps ops (s.done (.status s.status)) = .next (t, rs)) :
    poll (ops :: more) s = poll more t := by
  simp [poll, exec_status_of_inited hs, hfull, h]

/-- Settles O54: by induction on the fuel; a STATUS shows the `status` that the block keeps, and the
operations between two tries leave a ready block. -/
theorem pollAnswersWhetherFull : Obligations.PollAnswersWhetherFull := by
  intro s between hs hbetween
  induction between generalizing s with
  | nil => exact ⟨_, _, poll_nil_of_inited hs.inited, hs.done _, decide_eq_true_iff⟩
  | cons ops more ih =>
    by_cases hfull : s.status = .full
    · exact ⟨_, _, poll_cons_of_full ops more hs.inited hfull, hs.done _,
        iff_of_true rfl hfull⟩
    · have hseen : (s.done (.status s.status)).Ready := hs.done _
      obtain ⟨t, rs, hrun⟩ := hseen.tracksFill.runOps_completes (hbetween ops List.mem_cons_self)
      rw [poll_cons_of_not_full more hs.inited hfull hrun]
      exact ih t (runOps_keeps State.Ready.exec hrun hseen)
        fun ops' hmem => hbetween ops' (List.mem_cons_of_mem _ hmem)

end Sys2Proof.Machine
end

section
/-! ACCEPT performed as sub-steps (R41, log entry 16): it ends where the one-step ACCEPT does, `status`
is its last write, and the byte is stored before the cursor moves. -/

namespace Sys2Proof.Machine

/-! ### Writes in order -/

/-- The write leaves what `f` reads of the state. -/
def SubStep.Keeps {α : Type} (w : SubStep) (f : State → α) : Prop := ∀ s, f (w.apply s) = f s

theorem SubStep.keeps_inited (w : SubStep) : w.Keeps State.inited := by
  intro s
  cases w <;> rfl

theorem applyAll_append (l l' : List SubStep) (s : State) :
    applyAll (l ++ l') s = applyAll l' (applyAll l s) := List.foldl_append

/-- What each write leaves, all of them leave. -/
theorem applyAll_keeps {α : Type} {f : State → α} {l : List SubStep} (h : ∀ w ∈ l, w.Keeps f)
    (s : State) : f (applyAll l s) = f s := by
  induction l generalizing s with
  | nil => rfl
  | cons w l ih =>
    exact (ih (fun w' hw' => h w' (List.mem_cons_of_mem _ hw')) (w.apply s)).trans
      (h w List.mem_cons_self s)

/-- After `k` sub-steps the first `k` writes have been made and the others are still to come. -/
theorem Refined.advance_iterate (k : Nat) (r : Refined) :
    Refined.advance^[k] r = ⟨applyAll (r.inFlight.take k) r.base, r.inFlight.drop k⟩ := by
  induction k generalizing r with
  | zero => rfl
  | succ k ih =>
    obtain ⟨s, l⟩ := r
    rw [Function.iterate_succ_apply, ih]
    cases l with
    | nil => simp [Refined.advance]
    | cons w l => rfl

theorem Refined.advance_iterate_of_length_le {k : Nat} {r : Refined} (h : r.inFlight.length ≤ k) :
    Refined.advance^[k] r = r.finish := by
  rw [Refined.advance_iterate, List.take_of_length_le h, List.drop_of_length_le h]
  rfl

/-- A STATUS between sub-steps returns the `status` of the moment and leaves the writes still to come
(R41). -/
theorem Refined.issue_status_of_inited {q : Refined} (h : q.base.inited = true) :
    q.issue .status = .next ⟨q.base.done (.status q.base.status), q.inFlight⟩ := by
  simp [Refined.issue, Refined.atomic, exec_status_of_inited h]

/-! ### The writes of an ACCEPT -/

theorem acceptSubSteps_of_full {b : Bit} {s : State} (hfull : s.status = .full) :
    acceptSubSteps b s = [] := if_pos hfull

section Writes
variable {b : Bit} {s : State} (hfull : s.status ≠ .full)
include hfull

theorem acceptSubSteps_of_empty_slot (hv : s.pairValid = false) :
    acceptSubSteps b s = [.setSlot true b] := by
  simp [acceptSubSteps, hfull, hv]

theorem acceptSubSteps_of_pair_eq (hv : s.pairValid = true) (heq : s.pairBit = b) :
    acceptSubSteps b s = [.setSlot false 0#1] := by
  simp [acceptSubSteps, hfull, hv, correctPair_eq_none.mpr heq]

theorem acceptSubSteps_of_pair_ne (hv : s.pairValid = true) (hne : s.pairBit ≠ b) :
    acceptSubSteps b s = .setSlot false 0#1 :: appendSubSteps s.pairBit s := by
  simp [acceptSubSteps, hfull, hv, correctPair_eq_some.mpr ⟨hne, rfl⟩]

end Writes

/-- All the lists of writes an ACCEPT can have: none, the slot alone, or the slot and then those of a
corrected bit, which completes a byte or does not. -/
theorem acceptSubSteps_cases (b : Bit) (s : State) :
    acceptSubSteps b s = [] ∨ (∃ v p, acceptSubSteps b s = [.setSlot v p]) ∨
      (∃ v p a c st, acceptSubSteps b s = [.setSlot v p, .setAccumulator a c, .setStatus st]) ∨
      (∃ v p i x n a c st, acceptSubSteps b s =
        [.setSlot v p, .storeByte i x, .setFillIndex n, .setAccumulator a c, .setStatus st]) := by
  unfold acceptSubSteps
  split
  · exact .inl rfl
  split
  · exact .inr (.inl ⟨_, _, rfl⟩)
  split
  · exact .inr (.inl ⟨_, _, rfl⟩)
  unfold appendSubSteps
  split
  · exact .inr (.inr (.inl ⟨_, _, _, _, _, rfl⟩))
  · exact .inr (.inr (.inr ⟨_, _, _, _, _, _, _, _, rfl⟩))

/-- Only the last write is of `status` (R41). -/
theorem keeps_status_of_mem_dropLast {b : Bit} {s : State} :
    ∀ w ∈ (acceptSubSteps b s).dropLast, w.Keeps State.status := by
  obtain h | ⟨v, p, h⟩ | ⟨v, p, a, c, st, h⟩ | ⟨v, p, i, x, n, a, c, st, h⟩ :=
    acceptSubSteps_cases b s
  all_goals simp [h, SubStep.Keeps, SubStep.apply]

/-- No write after one that moves `fill_index` is of a byte (R41). -/
theorem pairwise_store_before_cursor (b : Bit) (s : State) : (acceptSubSteps b s).Pairwise
    fun w w' => w.Keeps State.fillIndex ∨ w'.Keeps State.buf := by
  obtain h | ⟨v, p, h⟩ | ⟨v, p, a, c, st, h⟩ | ⟨v, p, i, x, n, a, c, st, h⟩ :=
    acceptSubSteps_cases b s
  all_goals simp [h, SubStep.Keeps, SubStep.apply]

/-- While writes remain `status` is the old one. -/
theorem status_applyAll_take {b : Bit} {s : State} {k : Nat} (hk : k < (acceptSubSteps b s).length)
    (u : State) : (applyAll ((acceptSubSteps b s).take k) u).status = u.status := by
  have hsub : (acceptSubSteps b s).take k = (acceptSubSteps b s).dropLast.take k := by
    rw [List.dropLast_eq_take, List.take_take, Nat.min_eq_left (by omega)]
  refine applyAll_keeps (f := State.status) (fun w hw => ?_) u
  rw [hsub] at hw
  exact keeps_status_of_mem_dropLast w (List.mem_of_mem_take hw)

/-- Once the cursor has moved the buffer is the final one. -/
theorem buf_applyAll_take_of_moved {b : Bit} {s u : State} {k : Nat}
    (h : (applyAll ((acceptSubSteps b s).take k) u).fillIndex ≠ u.fillIndex) :
    (applyAll ((acceptSubSteps b s).take k) u).buf = (applyAll (acceptSubSteps b s) u).buf := by
  obtain ⟨w, hw, hmoves⟩ : ∃ w ∈ (acceptSubSteps b s).take k, ¬w.Keeps State.fillIndex := by
    by_contra! hkeep
    exact h (applyAll_keeps hkeep u)
  have hpair := pairwise_store_before_cursor b s
  rw [← List.take_append_drop k (acceptSubSteps b s), List.pairwise_append] at hpair
  obtain ⟨-, -, hafter⟩ := hpair
  conv_rhs => rw [← List.take_append_drop k (acceptSubSteps b s), applyAll_append]
  exact (applyAll_keeps (f := State.buf)
    (fun w' hw' => (hafter w hw w' hw').resolve_left hmoves) _).symm

/-! ### The refinement -/

/-- The writes of a corrected bit, made in order, are the append (R76, R77). -/
theorem State.append_eq_applyAll {e : Bit} {s : State} (hroom : s.fillIndex < s.cfg.capacity) :
    s.append e = .next (applyAll (appendSubSteps e s) (s.done .nothing)) := by
  have hcnt := s.cnt.isLt
  by_cases hlt : s.cnt.toNat + 1 < 8
  · rw [appendSubSteps, if_pos hlt]
    exact State.append_eq_next.mpr (.inl ⟨by omega, rfl⟩)
  · rw [appendSubSteps, if_neg hlt]
    exact State.append_of_eq_seven e (by omega) hroom

/-- The writes of an ACCEPT, made in order, are the one-step ACCEPT, in R69's cases. -/
theorem State.Ready.exec_accept_eq_applyAll {s : State} (hs : s.Ready) (b : Bit) :
    Machine.exec (.accept b.toNat) s =
      .next (applyAll (acceptSubSteps b s) (s.done .nothing)) := by
  by_cases hfull : s.status = .full
  · rw [exec_accept_of_full hs.inited hfull, acceptSubSteps_of_full hfull]
    rfl
  by_cases hv : s.pairValid = true
  · by_cases heq : s.pairBit = b
    · rw [exec_accept_of_pair_eq hs.inited hfull hv heq, acceptSubSteps_of_pair_eq hfull hv heq]
      rfl
    · rw [exec_accept_of_pair_ne hs.inited hfull hv heq, acceptSubSteps_of_pair_ne hfull hv heq]
      exact State.append_eq_applyAll (s := s.emptySlot) (hs.fill_lt hfull)
  · have hempty := Bool.eq_false_of_not_eq_true hv
    rw [exec_accept_of_empty_slot hs.inited hfull hempty, acceptSubSteps_of_empty_slot hfull hempty]
    rfl

/-- With no ACCEPT in flight one begins with all its writes to come (R97). -/
theorem Refined.issue_accept_of_inited {s : State} (hs : s.inited = true) (b : Bit) :
    Refined.issue (.accept b.toNat) ⟨s, []⟩ = .next ⟨s.done .nothing, acceptSubSteps b s⟩ := by
  simp [Refined.issue, Refined.beginAccept, hs]

/-- Settles O55: after `k` sub-steps the first `k` writes stand; `status` is the last of the writes, and
none after the cursor's is of a byte. Full seen with writes to come would be the old `status`, and a Full
block has none. -/
theorem subStepsKeepCommitOrder : Obligations.SubStepsKeepCommitOrder := by
  intro s b hs
  refine ⟨_, Refined.issue_accept_of_inited hs.inited b, hs.exec_accept_eq_applyAll b, ?_⟩
  rintro k q rfl
  have hstatus := status_applyAll_take (b := b) (s := s) (k := k) (u := s.done .nothing)
  have hdone := Refined.advance_iterate_of_length_le (k := k)
    (r := ⟨s.done .nothing, acceptSubSteps b s⟩)
  refine ⟨fun hk => ?_, hdone, fun hmoved => ?_, fun hfull i => ?_⟩
  · rw [Refined.advance_iterate]
    have hinited : (applyAll ((acceptSubSteps b s).take k) (s.done .nothing)).inited = true :=
      (applyAll_keeps (fun w _ => w.keeps_inited) _).trans hs.inited
    exact ⟨_, Refined.issue_status_of_inited hinited, congrArg Response.status (hstatus hk), rfl⟩
  · rw [Refined.advance_iterate] at hmoved ⊢
    exact congrArg (Memory.read · s.fillIndex) (buf_applyAll_take_of_moved hmoved)
  · obtain hk | hk := Nat.lt_or_ge k (acceptSubSteps b s).length
    · rw [Refined.advance_iterate] at hfull
      have hold : s.status = .full := (hstatus hk).symm.trans hfull
      rw [acceptSubSteps_of_full hold] at hk
      exact absurd hk (Nat.not_lt_zero k)
    · rw [hdone hk]

end Sys2Proof.Machine
end
